-- ==== Sys2Proof/Word.lean ====
section
/-!
DEFINITION. The words of the ds128 core: limbs, the values on its ports, and the tuples its rules speak of.
Types only; everything that computes on them is in `Machine/Operands.lean`, `Machine/Flags.lean` and `Machine/Ops.lean`.
-/

namespace Sys2Proof

/-- A limb, "one 64-bit word of a multi-word integer representation" (00_scope R5, R7, R12). -/
abbrev Limb := BitVec 64

/-- The value on the operation-select port `op`, `OP_W` = 3 bits (00_scope R6, 10_state R23). -/
abbrev OpCode := BitVec 3

/-- A 1-bit quantity, 0 for false and 1 for true (00_scope R8). -/
abbrev Bit := BitVec 1

/-- A packed request `REQ`, 259 bits (30_encoding R51). -/
abbrev RequestWord := BitVec 259

/-- A packed response `RSP`, 129 bits (30_encoding R57). -/
abbrev ResponseWord := BitVec 129

/-- A 128-bit value as its pair of limbs, low limb first (00_scope R7, 10_state R21). -/
structure Pair where
  lo : Limb
  hi : Limb
  deriving DecidableEq, Repr

/-- The result of the widening multiply: the one tuple the spec writes high word first
(00_scope R7, 44_multiply_optional R101). -/
structure WideProduct where
  highWord : Limb
  lowWord  : Limb
  deriving DecidableEq, Repr

/-- The values on the five input ports (00_scope R10, 10_state R23). -/
structure Request where
  op  : OpCode
  aLo : Limb
  aHi : Limb
  bLo : Limb
  bHi : Limb
  deriving DecidableEq, Repr

/-- The values on the three output ports (00_scope R10, 10_state R24). -/
structure Response where
  rLo : Limb
  rHi : Limb
  rLt : Bit
  deriving DecidableEq, Repr

/-- The part of a response that the source's function returns (00_scope R10, 30_encoding R57). -/
inductive ResultView where
  /-- `(r_lo, r_hi)`, for every operation but `CMP`. -/
  | value (p : Pair)
  /-- `r_lt`, for `CMP`. -/
  | less (b : Bit)
  deriving DecidableEq, Repr

end Sys2Proof
end

