-- ==== Sys2Proof/Config.lean ====
section
/-!
DEFINITION. What is fixed when the hardware is built and the spec leaves OPEN (00_scope R6).

Of the open parameters only `HAS_MUL` is a field. `T_PD` has none because no rule depends on it (70_reset_and_hazards R143,
93_implementation_defined U4), and the number of instances is the length of a `Machine.Bank` (60_exceptions R129).
No operation leaves a result open (93_implementation_defined section 1), so there is no free value.
-/

namespace Sys2Proof

/-- The static parameters of one block. They stand in `Machine.State` (log entry 2), so that every statement over states
holds for each value of them. -/
structure Config where
  /-- `HAS_MUL`: whether the multiply extension `M` is present (00_scope R3, R6; 44_multiply_optional R100). -/
  hasMul : Bool
  deriving DecidableEq, Repr

/-- The default hardware: `HAS_MUL` "defaults to false" (00_scope R3). -/
def Config.default : Config := { hasMul := false }

/-- The hardware with the multiply extension `M`. -/
def Config.withMul : Config := { hasMul := true }

end Sys2Proof
end

