-- ==== Sys2Proof/Syntax.lean ====
section
/-!
DEFINITION. The operations, one constructor per row of `spec/opcode_table.json`.
An instruction of this hardware is a request (30_encoding R51), so a constructor carries the operands the request gives its
operation, in the argument order of the source's signature (30_encoding R52, R53).
-/

namespace Sys2Proof

/-- The five operations of 30_encoding R52. A reserved `op` value is no operation (R58). -/
inductive Instr where
  /-- `ADD`, `Add(lo1, hi1, lo2, hi2) -> (lo, hi)` (41_add R70). -/
  | add (x y : Pair)
  /-- `NEG`, `Negate(lo, hi) -> (lo, hi)` (42_negate R80). -/
  | neg (x : Pair)
  /-- `CMP`, `Cmp(lo1, hi1, lo2, hi2) -> bool` (43_compare R90). -/
  | cmp (x y : Pair)
  /-- `MUL64`, `Mul64(lo, hi, v) -> (resLo, resHi)`, of extension `M` (44_multiply_optional R103). -/
  | mul64 (x : Pair) (v : Limb)
  /-- `MUL`, `Mul(lo1, hi1, lo2, hi2) -> (lo, hi)`, of extension `M` (44_multiply_optional R105). -/
  | mul (x y : Pair)
  deriving DecidableEq, Repr

end Sys2Proof
end

