-- ==== Sys2Proof/Machine/Operands.lean ====
section
/-!
DEFINITION. The data format and the operand forms: the value of a pair, the pair of a value, which ports an operand stands on,
and which outputs carry a result.
-/

namespace Sys2Proof.Machine

/-- `val(lo, hi) = hi * 2^64 + lo` (00_scope R7, 10_state R21). -/
def val (p : Pair) : Nat := p.hi.toNat * 2 ^ 64 + p.lo.toNat

/-- `pair(n) = (n mod 2^64, (n div 2^64) mod 2^64)` (00_scope R7). -/
def pairOf (n : Nat) : Pair :=
  { lo := BitVec.ofNat 64 (n % 2 ^ 64), hi := BitVec.ofNat 64 (n / 2 ^ 64 % 2 ^ 64) }

/-- The joined 128-bit word `{hi, lo}` of a pair (20_memory R41). -/
def joined (p : Pair) : BitVec 128 := p.hi ++ p.lo

/-- The first operand, on `a_lo` and `a_hi` (30_encoding R53). -/
def firstOperand (r : Request) : Pair := { lo := r.aLo, hi := r.aHi }

/-- The second operand of `ADD`, `CMP` and `MUL`, on `b_lo` and `b_hi` (30_encoding R53). -/
def secondOperand (r : Request) : Pair := { lo := r.bLo, hi := r.bHi }

/-- The multiplier `v` of `MUL64`, on `b_lo` (30_encoding R53). -/
def multiplierOperand (r : Request) : Limb := r.bLo

/-- The response that returns a pair: `r_lo`, `r_hi` carry it and `r_lt` is 0 (30_encoding R57). -/
def pairResponse (p : Pair) : Response := { rLo := p.lo, rHi := p.hi, rLt := 0#1 }

/-- The response that returns a Boolean: `r_lt` carries it, 1 for true, and `r_lo`, `r_hi` are 0
(30_encoding R57, 43_compare R95). -/
def boolResponse (b : Bool) : Response := { rLo := 0#64, rHi := 0#64, rLt := BitVec.ofBool b }

/-- The pair on the result ports. -/
def resultPair (r : Response) : Pair := { lo := r.rLo, hi := r.rHi }

/-- The result view of an instruction's response (00_scope R10, 30_encoding R57). -/
def resultView (i : Instr) (r : Response) : ResultView :=
  match i with
  | .add _ _   => .value (resultPair r)
  | .neg _     => .value (resultPair r)
  | .cmp _ _   => .less r.rLt
  | .mul64 _ _ => .value (resultPair r)
  | .mul _ _   => .value (resultPair r)

end Sys2Proof.Machine
end

