-- ==== Sys2Proof/Machine/Flags.lean ====
section
/-!
DEFINITION. The two 1-bit conditions of the block (10_state R27). Neither is state: each is a value of one evaluation.
-/

namespace Sys2Proof.Machine

/-- Carry-out detection: `c_lo = (lo <u lo1)`, for the wrapped low sum `lo` and its first addend `lo1` (41_add R71). -/
def carryLow (lo lo1 : Limb) : Bool := lo.ult lo1

/-- The comparator, in the three-way form of 43_compare R90: high limbs first, the first test strictly greater
(R92, 90_conflicts C1), low limbs only when the high limbs are equal. -/
def lessThan (x y : Pair) : Bool :=
  if y.hi.ult x.hi then false
  else if x.hi.ult y.hi then true
  else x.lo.ult y.lo

end Sys2Proof.Machine
end

