-- ==== Sys2Proof/WellFormed.lean ====
section
/-!
DEFINITION. Which instructions a block of a given configuration has.
-/

namespace Sys2Proof

/-- The operations of extension `M` are present only when `HAS_MUL` (00_scope R3, 44_multiply_optional R100); the other three
always are (00_scope R2). Every pair of limbs is a legal operand (10_state R22), so nothing else is checked. -/
def WellFormed (cfg : Config) : Instr → Bool
  | .add _ _   => true
  | .neg _     => true
  | .cmp _ _   => true
  | .mul64 _ _ => cfg.hasMul
  | .mul _ _   => cfg.hasMul

end Sys2Proof
end

