-- ==== Sys2Proof/Decode.lean ====
section
/-!
DEFINITION. Requests as words, decoding and encoding (30_encoding R51 to R58).
-/

namespace Sys2Proof

/-! ### The operation codes (30_encoding R52) -/

def opAdd : OpCode := 0b000#3
def opNeg : OpCode := 0b001#3
def opCmp : OpCode := 0b010#3
def opMul64 : OpCode := 0b011#3
def opMul : OpCode := 0b100#3

/-! ### The packed words -/

/-- `REQ = {op, b_hi, b_lo, a_hi, a_lo}` (30_encoding R51). -/
def packRequest (r : Request) : RequestWord := r.op ++ r.bHi ++ r.bLo ++ r.aHi ++ r.aLo

/-- The fields of a packed request, at the bit positions of 30_encoding R51. -/
def unpackRequest (w : RequestWord) : Request :=
  { op  := w.extractLsb' 256 3
    aLo := w.extractLsb' 0 64
    aHi := w.extractLsb' 64 64
    bLo := w.extractLsb' 128 64
    bHi := w.extractLsb' 192 64 }

/-- `RSP = {r_lt, r_hi, r_lo}` (30_encoding R57). -/
def packResponse (r : Response) : ResponseWord := r.rLt ++ r.rHi ++ r.rLo

/-- The fields of a packed response, at the bit positions of 30_encoding R57. -/
def unpackResponse (w : ResponseWord) : Response :=
  { rLo := w.extractLsb' 0 64
    rHi := w.extractLsb' 64 64
    rLt := w.extractLsb' 128 1 }

/-! ### Decoding -/

/-- The decoder's verdict on a request (30_encoding R56): an operation with its operands, or the reserved code by name. -/
inductive Decoded where
  | operation (i : Instr)
  | reserved (code : OpCode)
  deriving DecidableEq, Repr

/-- Decoding, total, by the 3 bits of `op` alone (30_encoding R52, R56), with the operand mapping of R53. -/
def decode (cfg : Config) (r : Request) : Decoded :=
  if r.op = opAdd then .operation (.add (Machine.firstOperand r) (Machine.secondOperand r))
  else if r.op = opNeg then .operation (.neg (Machine.firstOperand r))
  else if r.op = opCmp then .operation (.cmp (Machine.firstOperand r) (Machine.secondOperand r))
  else if r.op = opMul64 ∧ cfg.hasMul = true then
    .operation (.mul64 (Machine.firstOperand r) (Machine.multiplierOperand r))
  else if r.op = opMul ∧ cfg.hasMul = true then
    .operation (.mul (Machine.firstOperand r) (Machine.secondOperand r))
  else .reserved r.op

/-- Decoding of a packed request. -/
def decodeWord (cfg : Config) (w : RequestWord) : Decoded := decode cfg (unpackRequest w)

/-! ### Encoding -/

/-- The code of an instruction (30_encoding R52). -/
def opCodeOf : Instr → OpCode
  | .add _ _   => opAdd
  | .neg _     => opNeg
  | .cmp _ _   => opCmp
  | .mul64 _ _ => opMul64
  | .mul _ _   => opMul

/-- The request of an instruction, with zero on the ports it ignores (30_encoding R55, R61). -/
def encode (i : Instr) : Request :=
  match i with
  | .add x y   => { op := opCodeOf i, aLo := x.lo, aHi := x.hi, bLo := y.lo, bHi := y.hi }
  | .neg x     => { op := opCodeOf i, aLo := x.lo, aHi := x.hi, bLo := 0#64, bHi := 0#64 }
  | .cmp x y   => { op := opCodeOf i, aLo := x.lo, aHi := x.hi, bLo := y.lo, bHi := y.hi }
  | .mul64 x v => { op := opCodeOf i, aLo := x.lo, aHi := x.hi, bLo := v, bHi := 0#64 }
  | .mul x y   => { op := opCodeOf i, aLo := x.lo, aHi := x.hi, bLo := y.lo, bHi := y.hi }

/-- The packed request of an instruction. -/
def encodeWord (i : Instr) : RequestWord := packRequest (encode i)

/-! ### The opcode table's numbering -/

/-- The request that `spec/opcode_table.json` numbers `w`: its rows number only the 3 bits of the `op` port, bit 0 least
significant ("match_mask_on": "the 3-bit op port"), so those are the low bits of `w`, bits at `nbits` and above are 0, and the
operand ports carry zeros (log entry 6). -/
def tableRequest (nbits w : Nat) : Request :=
  { op := BitVec.ofNat 3 (w % 2 ^ nbits), aLo := 0#64, aHi := 0#64, bLo := 0#64, bHi := 0#64 }

/-- The configuration on which a table row is an operation: the rows with codes 3 and 4 are "present only when HAS_MUL is true". -/
def tableConfig : Config := Config.withMul

/-- The instruction the decoder reads from a word numbered as the opcode table numbers it; `none` for a reserved code. -/
def decodeTableWord (nbits w : Nat) : Option Instr :=
  match decode tableConfig (tableRequest nbits w) with
  | .operation i => some i
  | .reserved _  => none

end Sys2Proof
end

