-- ==== Sys2Proof/Machine/State.lean ====
section
/-!
DEFINITION. The machine's state and the ways a step can stop.

The block "holds no architectural state" (10_state R20): nothing in it is remembered. What stands here is what one evaluation
reads and writes, the values on its ports, and the static parameter `HAS_MUL` (log entries 1 and 2).
-/

namespace Sys2Proof.Machine

/-- The ports and the parameter of one block. -/
structure State where
  /-- The static parameters (00_scope R6); no step changes them. -/
  config  : Config
  /-- The values on the input ports (10_state R23); the host drives them, no step changes them (10_state R31). -/
  inputs  : Request
  /-- The values on the output ports (10_state R24); an evaluation drives all three. -/
  outputs : Response
  deriving DecidableEq, Repr

/-- The hardware faults a step can end in: none. "The list of exception causes is empty" (60_exceptions R120), so this type
has no constructor, nothing raises a fault, and a later change that added one would be a departure from the spec. -/
inductive Fault where
  deriving DecidableEq, Repr

/-- The model's verdicts on a request it gives no response. -/
inductive Refusal where
  /-- An instruction without a meaning in this model; raised by an arm of `exec` only. Safe: the model stops where the
  hardware goes on. No arm raises it now. -/
  | notModelled (mnemonic : String)
  /-- A reserved `op` value (30_encoding R58, 60_exceptions R122): raised by `step` when the decoder reads no operation, and by
  the two multiplies on a block without extension `M`. Safe: the hardware drives unspecified values and goes on, and the spec
  tells a model to refuse ("errs toward unprovable"). -/
  | reservedOp (op : OpCode)
  deriving DecidableEq, Repr

/-- The block right after power is applied. There is no reset and no reset value (10_state R32, 70_reset_and_hazards R140); the
spec says that the outputs carry `eval` of whatever stands on the inputs (R141). DESIGN CHOICE (log entry 3), unsafe: the inputs
are all zero, hence the outputs carry the response of `ADD 0, 0, 0, 0`. `HAS_MUL` is at its default, false (00_scope R6). -/
def State.reset : State :=
  { config  := Config.default
    inputs  := { op := 0#3, aLo := 0#64, aHi := 0#64, bLo := 0#64, bHi := 0#64 }
    outputs := { rLo := 0#64, rHi := 0#64, rLt := 0#1 } }

end Sys2Proof.Machine
end

