-- ==== Sys2Proof/Machine/Ops.lean ====
section
/-!
DEFINITION. The shared operations: the adder, the negator, the multiplier, and how a response reaches the output ports.

There is no register file, memory, exception entry or return from exception to write here: the block has none
(10_state R25, 20_memory R40, 60_exceptions R120, R125, R126).
-/

namespace Sys2Proof.Machine

/-! ### The adder and the negator -/

/-- `x +64 y`, the 64-bit wrapping add (00_scope R8). -/
def add64 (x y : Limb) : Limb := x + y

/-- `b ? x +64 1 : x`, the increment of the high limb by a detected carry (41_add R70). -/
def addCarry (x : Limb) (carry : Bool) : Limb := if carry then add64 x 1#64 else x

/-- The two-limb adder, in the steps of 41_add R70. The carry out of the high limb is dropped (R73). -/
def addPair (x y : Pair) : Pair :=
  let lo  := add64 x.lo y.lo
  let cLo := carryLow lo x.lo
  let hi0 := add64 x.hi y.hi
  { lo := lo, hi := addCarry hi0 cLo }

/-- Both limbs complemented (42_negate R80; `~x` in 00_scope R8). -/
def complementPair (x : Pair) : Pair := { lo := ~~~x.lo, hi := ~~~x.hi }

/-- The constant one, `(lo, hi) = (1, 0)`, built into the negator (30_encoding R54, 42_negate R85). -/
def onePair : Pair := { lo := 1#64, hi := 0#64 }

/-- The negator: complement both limbs, then add one through the adder (42_negate R80, R85). -/
def negPair (x : Pair) : Pair := addPair (complementPair x) onePair

/-! ### The multiplier, extension `M` -/

/-- `mulw(x, y)`, the exact product as (high word, low word) (44_multiply_optional R101). -/
def mulw (x y : Limb) : WideProduct :=
  let p := x.toNat * y.toNat
  { highWord := BitVec.ofNat 64 (p / 2 ^ 64), lowWord := BitVec.ofNat 64 (p % 2 ^ 64) }

/-- The schoolbook form of `mulw` that 44_multiply_optional R102 works out in 32-bit halves, in 64-bit arithmetic. No
instruction calls it: R101 is the definition and this "has no standing of its own". -/
def mulwSchoolbook (x y : Limb) : WideProduct :=
  let low (w : Limb) : Limb := w &&& 0xFFFFFFFF#64
  let high (w : Limb) : Limb := w >>> 32
  let p00 := low x * low y
  let p01 := low x * high y
  let p10 := high x * low y
  let p11 := high x * high y
  let mid := high p00 + low p01 + low p10
  { highWord := p11 + high p01 + high p10 + high mid, lowWord := low p00 + (low mid <<< 32) }

/-- The three steps of `Mul64` (44_multiply_optional R103). -/
def mul64Pair (x : Pair) (v : Limb) : Pair :=
  let step1 := mulw x.lo v
  let step2 := mulw x.hi v
  { lo := step1.lowWord, hi := add64 step2.lowWord step1.highWord }

/-- `Mul`: the second operand times each limb of the first (44_multiply_optional R105). -/
def mulPair (x y : Pair) : Pair :=
  let step1 := mul64Pair y x.lo
  let step2 := mul64Pair y x.hi
  { lo := step1.lo, hi := add64 step2.lo step1.hi }

/-! ### Reaching the ports -/

/-- `out.<port> <- v` for the three output ports: the evaluation drives `r` on them and changes nothing else
(00_scope R9, 10_state R31, 20_memory R44). -/
def respond (r : Response) (s : State) : Host.Outcome State Fault Refusal :=
  .next { s with outputs := r }

/-- As `respond`, for an operation of extension `M`: on a block without the extension its code is reserved and is refused by
that name (44_multiply_optional R100, 30_encoding R58). -/
def respondWithMul (op : OpCode) (r : Response) (s : State) : Host.Outcome State Fault Refusal :=
  if s.config.hasMul then respond r s else .refused (.reservedOp op)

end Sys2Proof.Machine
end

