-- ==== Sys2Proof/Machine/Add.lean ====
section
/-! DEFINITION. The meaning of `ADD` (41_add). -/

namespace Sys2Proof.Machine

/-- `ADD`: 128-bit addition modulo 2^128 with the carry of the low limb found from the wrapped low sum (41_add R70). -/
def execAdd (x y : Pair) (s : State) : Host.Outcome State Fault Refusal :=
  respond (pairResponse (addPair x y)) s

end Sys2Proof.Machine
end

