-- ==== Sys2Proof/Machine/Compare.lean ====
section
/-! DEFINITION. The meaning of `CMP` (43_compare). -/

namespace Sys2Proof.Machine

/-- `CMP`: unsigned 128-bit strict less-than, on `r_lt` (43_compare R90, R95). -/
def execCmp (x y : Pair) (s : State) : Host.Outcome State Fault Refusal :=
  respond (boolResponse (lessThan x y)) s

end Sys2Proof.Machine
end

