-- ==== Sys2Proof/Machine/Multiply.lean ====
section
/-! DEFINITION. The meanings of `MUL64` and `MUL`, extension `M` (44_multiply_optional). -/

namespace Sys2Proof.Machine

/-- `MUL64`: a 128-bit value times a limb, modulo 2^128, on a block with `HAS_MUL` (44_multiply_optional R100, R103). -/
def execMul64 (x : Pair) (v : Limb) (s : State) : Host.Outcome State Fault Refusal :=
  respondWithMul opMul64 (pairResponse (mul64Pair x v)) s

/-- `MUL`: the product of two 128-bit values, modulo 2^128, on a block with `HAS_MUL` (44_multiply_optional R100, R105). -/
def execMul (x y : Pair) (s : State) : Host.Outcome State Fault Refusal :=
  respondWithMul opMul (pairResponse (mulPair x y)) s

end Sys2Proof.Machine
end

