-- ==== Sys2Proof/Machine/Negate.lean ====
section
/-! DEFINITION. The meaning of `NEG` (42_negate). -/

namespace Sys2Proof.Machine

/-- `NEG`: two's-complement negation modulo 2^128 through the adder (42_negate R80). -/
def execNeg (x : Pair) (s : State) : Host.Outcome State Fault Refusal :=
  respond (pairResponse (negPair x)) s

end Sys2Proof.Machine
end

