-- ==== Sys2Proof/Machine/Dispatch.lean ====
section
/-! DEFINITION. One arm per operation of 30_encoding R52. -/

namespace Sys2Proof.Machine

def exec (i : Instr) (s : State) : Host.Outcome State Fault Refusal :=
  match i with
  | .add x y => Sys2Proof.Machine.execAdd x y s
  | .neg x => Sys2Proof.Machine.execNeg x s
  | .cmp x y => Sys2Proof.Machine.execCmp x y s
  | .mul64 x v => Sys2Proof.Machine.execMul64 x v s
  | .mul x y => Sys2Proof.Machine.execMul x y s

end Sys2Proof.Machine
end

