-- ==== Sys2Proof/Machine/Step.lean ====
section
/-!
DEFINITION. One step: one evaluation of the block on the request that stands on its input ports.
-/

namespace Sys2Proof.Machine

/-- One evaluation (00_scope R9, R10; 70_reset_and_hazards R143): the request on the input ports, one snapshot (20_memory R44), is
decoded and answered on the output ports. A reserved `op` is refused by name (30_encoding R58). There is no program counter to
advance (10_state R26). -/
def step (s : State) : Host.Outcome State Fault Refusal :=
  match decode s.config s.inputs with
  | .operation i   => exec i s
  | .reserved code => .refused (.reservedOp code)

/-- `s` with the opcode table's word `w` on the input ports, where `step` takes its request (log entry 6). The codes of
extension `M` are operations only of a block that has the extension, so for them the block is one that has it. -/
def State.withFetchWord (s : State) (nbits w : Nat) : State :=
  let r := tableRequest nbits w
  { s with
    inputs := r
    config := { hasMul := s.config.hasMul || r.op == opMul64 || r.op == opMul } }

end Sys2Proof.Machine
end

