-- ==== Sys2Proof/Machine/Trace.lean ====
section
/-!
DEFINITION. The spec's written forms: packed requests and responses in text (30_encoding R51, R57), trace lines (R61) and
literals (R62). They are conventions for writing things down; the hardware has no text. A text is a list of characters.
-/

namespace Sys2Proof.Machine

/-- A written text. -/
abbrev Text := List Char

/-! ### Digits -/

/-- The sixteen digits, capital letters as in 95_test_vectors. -/
def digitChars : List Char :=
  ['0', '1', '2', '3', '4', '5', '6', '7', '8', '9', 'A', 'B', 'C', 'D', 'E', 'F']

/-- The digit for a number below 16. -/
def digitChar (n : Nat) : Char := digitChars.getD n '0'

/-- The value of a hexadecimal digit; small letters are read as capitals (log entry 11). -/
def digitValue (c : Char) : Option Nat :=
  if 48 ≤ c.toNat ∧ c.toNat ≤ 57 then some (c.toNat - 48)
  else if 65 ≤ c.toNat ∧ c.toNat ≤ 70 then some (c.toNat - 55)
  else if 97 ≤ c.toNat ∧ c.toNat ≤ 102 then some (c.toNat - 87)
  else none

/-- The last `k` hexadecimal digits of `n`, most significant first. -/
def hexText : Nat → Nat → Text
  | 0, _     => []
  | k + 1, n => hexText k (n / 16) ++ [digitChar (n % 16)]

/-- A limb as 16 hexadecimal digits. -/
def limbText (w : Limb) : Text := hexText 16 w.toNat

/-- Exactly `k` hexadecimal digits, read onto the number `acc`; the rest of the text follows. -/
def readHex : Nat → Nat → Text → Option (Nat × Text)
  | 0, acc, cs          => some (acc, cs)
  | _ + 1, _, []        => none
  | k + 1, acc, c :: cs =>
    match digitValue c with
    | some d => readHex k (acc * 16 + d) cs
    | none   => none

/-- One given character. -/
def readChar (c : Char) : Text → Option Text
  | []      => none
  | d :: cs => if d = c then some cs else none

/-- Sixteen hexadecimal digits as a limb. -/
def readLimb16 (cs : Text) : Option (Limb × Text) :=
  (readHex 16 0 cs).map fun p => (BitVec.ofNat 64 p.1, p.2)

/-! ### Packed requests and responses -/

/-- `op:b_hi_b_lo_a_hi_a_lo` (30_encoding R51). -/
def requestText (r : Request) : Text :=
  digitChar r.op.toNat :: ':' :: (limbText r.bHi ++ '_' :: (limbText r.bLo ++ '_' :: (limbText r.aHi ++ '_' :: limbText r.aLo)))

/-- A packed request read back; the `op` digit is 0 to 7 and nothing follows the last limb. -/
def readRequestText (cs : Text) : Option Request := do
  let (op, cs)  ← readHex 1 0 cs
  let cs        ← readChar ':' cs
  let (bHi, cs) ← readLimb16 cs
  let cs        ← readChar '_' cs
  let (bLo, cs) ← readLimb16 cs
  let cs        ← readChar '_' cs
  let (aHi, cs) ← readLimb16 cs
  let cs        ← readChar '_' cs
  let (aLo, cs) ← readLimb16 cs
  if op < 8 ∧ cs = [] then
    some { op := BitVec.ofNat 3 op, aLo := aLo, aHi := aHi, bLo := bLo, bHi := bHi }
  else none

/-- `r_lt:r_hi_r_lo` (30_encoding R57). -/
def responseText (r : Response) : Text :=
  digitChar r.rLt.toNat :: ':' :: (limbText r.rHi ++ '_' :: limbText r.rLo)

/-- A packed response read back; the `r_lt` digit is 0 or 1 and nothing follows the last limb. -/
def readResponseText (cs : Text) : Option Response := do
  let (lt, cs)  ← readHex 1 0 cs
  let cs        ← readChar ':' cs
  let (rHi, cs) ← readLimb16 cs
  let cs        ← readChar '_' cs
  let (rLo, cs) ← readLimb16 cs
  if lt < 2 ∧ cs = [] then some { rLo := rLo, rHi := rHi, rLt := BitVec.ofNat 1 lt } else none

/-! ### Literals (30_encoding R62) -/

def skipSpaces : Text → Text
  | []      => []
  | c :: cs => if c = ' ' then skipSpaces cs else c :: cs

/-- The digits of base `base` at the head of a text, read onto `acc`. -/
def readDigits (base : Nat) : Nat → Text → Nat × Text
  | acc, []      => (acc, [])
  | acc, c :: cs =>
    match digitValue c with
    | some d => if d < base then readDigits base (acc * base + d) cs else (acc, c :: cs)
    | none   => (acc, c :: cs)

/-- One or more digits of base `base`. -/
def readNumber (base : Nat) : Text → Option (Nat × Text)
  | []      => none
  | c :: cs =>
    match digitValue c with
    | some d => if d < base then some (readDigits base d cs) else none
    | none   => none

/-- A literal: hexadecimal after `0x`, else decimal. -/
def readLiteral (cs : Text) : Option (Nat × Text) :=
  match skipSpaces cs with
  | '0' :: 'x' :: rest => readNumber 16 rest
  | rest               => readNumber 10 rest

/-- A literal that "must fit the port": below `2^width`. -/
def readOperand (width : Nat) (cs : Text) : Option (BitVec width × Text) :=
  match readLiteral cs with
  | some (n, rest) => if n < 2 ^ width then some (BitVec.ofNat width n, rest) else none
  | none           => none

/-- `n` more limbs, each after a comma. -/
def readMoreLimbs : Nat → Text → Option (List Limb × Text)
  | 0, cs     => some ([], cs)
  | n + 1, cs => do
    let cs        ← readChar ',' (skipSpaces cs)
    let (w, cs)   ← readOperand 64 cs
    let (ws, cs)  ← readMoreLimbs n cs
    some (w :: ws, cs)

/-- `n + 1` limbs with commas between them. -/
def readLimbs (n : Nat) (cs : Text) : Option (List Limb × Text) := do
  let (w, cs)  ← readOperand 64 cs
  let (ws, cs) ← readMoreLimbs n cs
  some (w :: ws, cs)

/-! ### Trace lines (30_encoding R61) -/

/-- The mnemonic of 30_encoding R52. -/
def mnemonicText : Instr → Text
  | .add _ _   => ['A', 'D', 'D']
  | .neg _     => ['N', 'E', 'G']
  | .cmp _ _   => ['C', 'M', 'P']
  | .mul64 _ _ => ['M', 'U', 'L', '6', '4']
  | .mul _ _   => ['M', 'U', 'L']

/-- The source's own spelling, which "a model's printer may equally print" (30_encoding R61). -/
def sourceNameText : Instr → Text
  | .add _ _   => ['A', 'd', 'd']
  | .neg _     => ['N', 'e', 'g', 'a', 't', 'e']
  | .cmp _ _   => ['C', 'm', 'p']
  | .mul64 _ _ => ['M', 'u', 'l', '6', '4']
  | .mul _ _   => ['M', 'u', 'l']

/-- The operands in the source's argument order. -/
def operandLimbs : Instr → List Limb
  | .add x y   => [x.lo, x.hi, y.lo, y.hi]
  | .neg x     => [x.lo, x.hi]
  | .cmp x y   => [x.lo, x.hi, y.lo, y.hi]
  | .mul64 x v => [x.lo, x.hi, v]
  | .mul x y   => [x.lo, x.hi, y.lo, y.hi]

/-- The operation of a mnemonic with its operands. -/
def operationOf (name : Text) (ws : List Limb) : Option Instr :=
  if name = ['A', 'D', 'D'] then
    match ws with | [a, b, c, d] => some (.add ⟨a, b⟩ ⟨c, d⟩) | _ => none
  else if name = ['N', 'E', 'G'] then
    match ws with | [a, b] => some (.neg ⟨a, b⟩) | _ => none
  else if name = ['C', 'M', 'P'] then
    match ws with | [a, b, c, d] => some (.cmp ⟨a, b⟩ ⟨c, d⟩) | _ => none
  else if name = ['M', 'U', 'L', '6', '4'] then
    match ws with | [a, b, v] => some (.mul64 ⟨a, b⟩ v) | _ => none
  else if name = ['M', 'U', 'L'] then
    match ws with | [a, b, c, d] => some (.mul ⟨a, b⟩ ⟨c, d⟩) | _ => none
  else none

/-- How many operands a mnemonic takes after its first (30_encoding R53). -/
def moreOperandsOf (name : Text) : Nat :=
  if name = ['N', 'E', 'G'] then 1 else if name = ['M', 'U', 'L', '6', '4'] then 2 else 3

/-- A limb as a literal, in hexadecimal with all its digits. -/
def literalText (w : Limb) : Text := '0' :: 'x' :: limbText w

/-- Literals with commas between them. -/
def literalsText : List Limb → Text
  | []           => []
  | [w]          => literalText w
  | w :: v :: ws => literalText w ++ ',' :: ' ' :: literalsText (v :: ws)

/-- A request alone: the mnemonic and the operands. -/
def requestLine (i : Instr) : Text := mnemonicText i ++ ' ' :: literalsText (operandLimbs i)

/-- A result view as the spec writes it after the arrow. -/
def viewText : ResultView → Text
  | .value p => literalsText [p.lo, p.hi]
  | .less b  => [digitChar b.toNat]

/-- A line of a trace: a request and, after an arrow, its result view. -/
structure TraceLine where
  instr  : Instr
  result : Option ResultView
  deriving DecidableEq, Repr

/-- A trace line written out. -/
def traceText (l : TraceLine) : Text :=
  match l.result with
  | none   => requestLine l.instr
  | some v => requestLine l.instr ++ ' ' :: '-' :: '>' :: ' ' :: viewText v

/-- The first word of a text, up to a space, and what follows it. -/
def readWord : Text → Text × Text
  | []      => ([], [])
  | c :: cs =>
    if c = ' ' then ([], c :: cs)
    else
      let (w, rest) := readWord cs
      (c :: w, rest)

/-- A result view of the kind that instruction `i` returns. -/
def readView (i : Instr) (cs : Text) : Option (ResultView × Text) :=
  match i with
  | .cmp _ _ => (readOperand 1 cs).map fun p => (.less p.1, p.2)
  | _        =>
    match readLimbs 1 cs with
    | some ([lo, hi], rest) => some (.value ⟨lo, hi⟩, rest)
    | _                     => none

/-- A trace line read back: a request alone, or a request with its result view. -/
def readTrace (cs : Text) : Option TraceLine := do
  let (name, cs) := readWord (skipSpaces cs)
  let (ws, cs)   ← readLimbs (moreOperandsOf name) cs
  let i          ← operationOf name ws
  match skipSpaces cs with
  | []               => some { instr := i, result := none }
  | '-' :: '>' :: cs =>
    match readView i cs with
    | some (v, cs) => if skipSpaces cs = [] then some { instr := i, result := some v } else none
    | none         => none
  | _                => none

end Sys2Proof.Machine
end

