-- ==== Sys2Proof/Machine/Contract.lean ====
section
/-!
DEFINITION. The block as the function `eval` of 00_scope R10, by the VALUE-LEVEL statements of the rules: what the operations
compute, as arithmetic of natural numbers, with no limb-level step in it. The machine (`step`) is written from the limb-level
pseudocode; that the two agree is a statement for proof, not a definition.
-/

namespace Sys2Proof.Machine

/-- The response of one operation, by its value-level rule: R72 for `ADD`, R81 for `NEG`, R91 for `CMP`, R104 for `MUL64`,
R106 for `MUL`. -/
def contract : Instr → Response
  | .add x y   => pairResponse (pairOf ((val x + val y) % 2 ^ 128))
  | .neg x     => pairResponse (pairOf ((2 ^ 128 - val x) % 2 ^ 128))
  | .cmp x y   => boolResponse (decide (val x < val y))
  | .mul64 x v => pairResponse (pairOf (val x * v.toNat % 2 ^ 128))
  | .mul x y   => pairResponse (pairOf (val x * val y % 2 ^ 128))

/-- `eval`, the whole block: the response to a request with a defined `op`, and none to one with a reserved `op`
(00_scope R10, 30_encoding R58). -/
def evalContract (cfg : Config) (r : Request) : Option Response :=
  match decode cfg r with
  | .operation i => some (contract i)
  | .reserved _  => none

end Sys2Proof.Machine
end

