-- ==== Sys2Proof/Machine/Environment.lean ====
section
/-!
DEFINITION. What the host may do to the block (70_reset_and_hazards R148), and several blocks side by side (60_exceptions R129).
-/

namespace Sys2Proof.Machine

/-! ### One block -/

/-- Present a request: the host drives the five input ports. Until the outputs settle they "may carry any values"
(70_reset_and_hazards R143): `unsettled` is those values, an argument that every statement quantifies over. -/
def present (r : Request) (unsettled : Response) (s : State) : State :=
  { s with inputs := r, outputs := unsettled }

/-- Sample the response: the host reads the three output ports. -/
def sample (s : State) : Response := s.outputs

/-- Present, hold, sample: one request served. A refused request has no response, and leaves the ports as they were presented:
it "does no lasting harm" (30_encoding R58). -/
def evaluate (r : Request) (unsettled : Response) (s : State) : Option Response × State :=
  match step (present r unsettled s) with
  | .next t    => (some (sample t), t)
  | .fault _   => (none, present r unsettled s)
  | .refused _ => (none, present r unsettled s)

/-- A sampled result pair fed back as the first operand of a later request: a result reaches an input only as a value the host has
sampled and presents again, on this block or on another (70_reset_and_hazards R145). -/
def feedFirst (result : Response) (r : Request) : Request := { r with aLo := result.rLo, aHi := result.rHi }

/-- A sampled result pair fed back as the second operand. -/
def feedSecond (result : Response) (r : Request) : Request := { r with bLo := result.rLo, bHi := result.rHi }

/-- A list of requests served one after another by one block, each with the unsettled outputs seen before it. -/
def serve : List (Request × Response) → State → List (Option Response) × State
  | [], s => ([], s)
  | (r, unsettled) :: rest, s =>
    let (answer, t) := evaluate r unsettled s
    let (answers, u) := serve rest t
    (answer :: answers, u)

/-! ### Several blocks -/

/-- A system's blocks (60_exceptions R129 (b)): any number, each a `State` of its own and nothing shared. -/
abbrev Bank := List State

/-- One request served by block `n` of a bank; there is no answer when there is no such block. -/
def evaluateAt : Nat → Request → Response → Bank → Option Response × Bank
  | _, _, _, [] => (none, [])
  | 0, r, unsettled, s :: bank =>
    let (answer, t) := evaluate r unsettled s
    (answer, t :: bank)
  | n + 1, r, unsettled, s :: bank =>
    let (answer, bank') := evaluateAt n r unsettled bank
    (answer, s :: bank')

/-- One request of a schedule: which block it goes to, the request, and the unsettled outputs seen before its response. Whoever
arbitrates may pick any order (60_exceptions R129 (a)): a schedule is an arbitrary list. -/
structure Job where
  block     : Nat
  request   : Request
  unsettled : Response
  deriving DecidableEq, Repr

/-- A schedule served by a bank, in its order. -/
def serveBank : List Job → Bank → List (Option Response) × Bank
  | [], bank => ([], bank)
  | job :: rest, bank =>
    let (answer, bank') := evaluateAt job.block job.request job.unsettled bank
    let (answers, bank'') := serveBank rest bank'
    (answer :: answers, bank'')

end Sys2Proof.Machine
end

