-- ==== Sys2Proof/Safety.lean ====
section
/-!
DEFINITION. What counts as a request the host may present, and as a state whose outputs may be sampled.
-/

namespace Sys2Proof.Machine

/-- `op` selects an operation of the block: the host's duty (70_reset_and_hazards R148, 30_encoding R58). -/
def DefinedOp (cfg : Config) (op : OpCode) : Bool :=
  op == opAdd || op == opNeg || op == opCmp || (cfg.hasMul && (op == opMul64 || op == opMul))

/-- The outputs are settled: they carry `eval` of the inputs (70_reset_and_hazards R141, R143). -/
abbrev Settled (s : State) : Prop := evalContract s.config s.inputs = some s.outputs

end Sys2Proof.Machine
end

