-- ==== Sys2Proof/Certificates/Slice0/Obligations.lean ====
section
/-!
DEFINITION. The statements for the provers. Each is about the machine (`step`, `exec`), its decoder, its data format or what the
host can do to it. A statement over all states needs no invariant: a state is the values on the ports and the parameter, and the
host can put the ports at any values.
-/

open Sys2Proof Sys2Proof.Machine

/-! ### The five operations, limb by limb: each equation says that the instruction completes, what it drives on all three outputs,
and that the inputs and the parameter are as before -/

/-- 41_add R70: the pseudocode of `ADD`, step by step; and the request with `op = 000` runs it on its four limbs. -/
def Obligations.AddDrivesTheWrappedTwoLimbSum : Prop :=
  (∀ (x y : Pair) (s : State),
    exec (.add x y) s =
      (let lo  := x.lo + y.lo
       let cLo := decide (lo.toNat < x.lo.toNat)
       let hi0 := x.hi + y.hi
       let hi  := if cLo then hi0 + 1#64 else hi0
       .next { s with outputs := { rLo := lo, rHi := hi, rLt := 0#1 } })) ∧
  ∀ s : State, s.inputs.op = 0b000#3 →
    step s = exec (.add ⟨s.inputs.aLo, s.inputs.aHi⟩ ⟨s.inputs.bLo, s.inputs.bHi⟩) s

/-- 42_negate R80: the pseudocode of `NEG`, step by step; and the request with `op = 001` runs it on `a_lo`, `a_hi`. -/
def Obligations.NegDrivesTheComplementPlusOne : Prop :=
  (∀ (x : Pair) (s : State),
    exec (.neg x) s =
      (let nlo := ~~~x.lo
       let nhi := ~~~x.hi
       let sum := nlo + 1#64
       let cLo := decide (sum.toNat < nlo.toNat)
       let h0  := nhi + 0#64
       let h   := if cLo then h0 + 1#64 else h0
       .next { s with outputs := { rLo := sum, rHi := h, rLt := 0#1 } })) ∧
  ∀ s : State, s.inputs.op = 0b001#3 → step s = exec (.neg ⟨s.inputs.aLo, s.inputs.aHi⟩) s

/-- 43_compare R90: the pseudocode of `CMP`, and its form as one expression; and the request with `op = 010` runs it on its four
limbs. -/
def Obligations.CmpDrivesTheStrictLessThanBit : Prop :=
  (∀ (x y : Pair) (s : State),
    exec (.cmp x y) s =
      (let lt : Bit :=
        if x.hi.toNat > y.hi.toNat then 0#1
        else if x.hi.toNat < y.hi.toNat then 1#1
        else if x.lo.toNat < y.lo.toNat then 1#1 else 0#1
       .next { s with outputs := { rLo := 0#64, rHi := 0#64, rLt := lt } })) ∧
  (∀ (x y : Pair) (s : State),
    exec (.cmp x y) s =
      .next { s with outputs := { rLo := 0#64, rHi := 0#64, rLt :=
        if x.hi.toNat < y.hi.toNat ∨ (x.hi = y.hi ∧ x.lo.toNat < y.lo.toNat) then 1#1 else 0#1 } }) ∧
  ∀ s : State, s.inputs.op = 0b010#3 →
    step s = exec (.cmp ⟨s.inputs.aLo, s.inputs.aHi⟩ ⟨s.inputs.bLo, s.inputs.bHi⟩) s

/-- 44_multiply_optional R103: the three steps of `MUL64`, on a block with `HAS_MUL`; and the request with `op = 011` runs it on
`a_lo`, `a_hi` and the multiplier on `b_lo`. -/
def Obligations.Mul64DrivesTheThreeStepProduct : Prop :=
  (∀ (x : Pair) (v : Limb) (s : State), s.config.hasMul = true →
    exec (.mul64 x v) s =
      (let addHi := BitVec.ofNat 64 (x.lo.toNat * v.toNat / 2 ^ 64)
       let resLo := BitVec.ofNat 64 (x.lo.toNat * v.toNat % 2 ^ 64)
       let hiLow := BitVec.ofNat 64 (x.hi.toNat * v.toNat % 2 ^ 64)
       .next { s with outputs := { rLo := resLo, rHi := hiLow + addHi, rLt := 0#1 } })) ∧
  ∀ s : State, s.inputs.op = 0b011#3 → s.config.hasMul = true →
    step s = exec (.mul64 ⟨s.inputs.aLo, s.inputs.aHi⟩ s.inputs.bLo) s

/-- 44_multiply_optional R105: the three steps of `MUL` over `mul64`, whose steps (R103) are written out here, on a block with
`HAS_MUL`; and the request with `op = 100` runs it on its four limbs. -/
def Obligations.MulDrivesTheTwoPartialProducts : Prop :=
  (∀ (x y : Pair) (s : State), s.config.hasMul = true →
    exec (.mul x y) s =
      (let mul64 : Pair → Limb → Pair := fun p v =>
        { lo := BitVec.ofNat 64 (p.lo.toNat * v.toNat % 2 ^ 64)
          hi := BitVec.ofNat 64 (p.hi.toNat * v.toNat % 2 ^ 64) + BitVec.ofNat 64 (p.lo.toNat * v.toNat / 2 ^ 64) }
       let first  := mul64 y x.lo
       let second := mul64 y x.hi
       .next { s with outputs := { rLo := first.lo, rHi := second.lo + first.hi, rLt := 0#1 } })) ∧
  ∀ s : State, s.inputs.op = 0b100#3 → s.config.hasMul = true →
    step s = exec (.mul ⟨s.inputs.aLo, s.inputs.aHi⟩ ⟨s.inputs.bLo, s.inputs.bHi⟩) s

/-! ### The five operations by value -/

/-- 41_add R72: `(r_lo, r_hi) = pair((A + B) mod 2^128)`, that is `val(r_lo, r_hi) = (A + B) mod 2^128`. -/
def Obligations.AddComputesTheSumModulo2Pow128 : Prop :=
  ∀ (x y : Pair) (s : State), ∃ t, exec (.add x y) s = .next t ∧
    t = { s with outputs := pairResponse (pairOf ((val x + val y) % 2 ^ 128)) } ∧
    val (resultPair t.outputs) = (val x + val y) % 2 ^ 128

/-- 42_negate R81: `val(r_lo, r_hi) = (2^128 - A) mod 2^128`, which is 0 when `A = 0` and `2^128 - A` otherwise. -/
def Obligations.NegComputesTheAdditiveInverse : Prop :=
  ∀ (x : Pair) (s : State), ∃ t, exec (.neg x) s = .next t ∧
    t = { s with outputs := pairResponse (pairOf ((2 ^ 128 - val x) % 2 ^ 128)) } ∧
    val (resultPair t.outputs) = (if val x = 0 then 0 else 2 ^ 128 - val x) ∧
    (val x + val (resultPair t.outputs)) % 2 ^ 128 = 0

/-- 43_compare R91: `r_lt = 1` exactly when `A < B` as natural numbers, and `r_lt = 0` exactly when `A >= B`. -/
def Obligations.CmpDecidesTheOrderOfTheValues : Prop :=
  ∀ (x y : Pair) (s : State), ∃ t, exec (.cmp x y) s = .next t ∧
    t = { s with outputs := { rLo := 0#64, rHi := 0#64, rLt := t.outputs.rLt } } ∧
    (t.outputs.rLt = 1#1 ↔ val x < val y) ∧ (t.outputs.rLt = 0#1 ↔ val x ≥ val y)

/-- 44_multiply_optional R104: `val(r_lo, r_hi) = (A * v) mod 2^128`, on a block with `HAS_MUL`. -/
def Obligations.Mul64ComputesTheProductModulo2Pow128 : Prop :=
  ∀ (x : Pair) (v : Limb) (s : State), s.config.hasMul = true → ∃ t, exec (.mul64 x v) s = .next t ∧
    t = { s with outputs := pairResponse (resultPair t.outputs) } ∧
    val (resultPair t.outputs) = val x * v.toNat % 2 ^ 128

/-- 44_multiply_optional R106: `val(r_lo, r_hi) = (A * B) mod 2^128`, on a block with `HAS_MUL`. -/
def Obligations.MulComputesTheProductModulo2Pow128 : Prop :=
  ∀ (x y : Pair) (s : State), s.config.hasMul = true → ∃ t, exec (.mul x y) s = .next t ∧
    t = { s with outputs := pairResponse (resultPair t.outputs) } ∧
    val (resultPair t.outputs) = val x * val y % 2 ^ 128

/-! ### Parts of the operations, and laws between them -/

/-- 41_add R71: the carry test on the wrapped low sum is bit 64 of the exact sum, and either addend may be tested. -/
def Obligations.CarryTestIsBit64OfTheExactLowSum : Prop :=
  ∀ lo1 lo2 : Limb,
    (carryLow (lo1 + lo2) lo1 = true ↔ lo1.toNat + lo2.toNat ≥ 2 ^ 64) ∧
    (carryLow (lo1 + lo2) lo1 = false ↔ lo1.toNat + lo2.toNat < 2 ^ 64) ∧
    (carryLow (lo1 + lo2) lo1 = true → (lo1 + lo2).toNat = lo1.toNat + lo2.toNat - 2 ^ 64) ∧
    (carryLow (lo1 + lo2) lo1 = false → (lo1 + lo2).toNat = lo1.toNat + lo2.toNat) ∧
    (BitVec.ofBool (carryLow (lo1 + lo2) lo1) ++ (lo1 + lo2)).toNat = lo1.toNat + lo2.toNat ∧
    carryLow (lo1 + lo2) lo2 = carryLow (lo1 + lo2) lo1

/-- 41_add R75 (the source's property S1 and what the rule derives from R72): zero is an identity on either side, `ADD` is
commutative, and associative over chained evaluations. -/
def Obligations.AddIsCommutativeAndAssociativeWithZero : Prop :=
  (∀ (x : Pair) (s : State),
    exec (.add x ⟨0#64, 0#64⟩) s = .next { s with outputs := ⟨x.lo, x.hi, 0#1⟩ } ∧
    exec (.add ⟨0#64, 0#64⟩ x) s = .next { s with outputs := ⟨x.lo, x.hi, 0#1⟩ }) ∧
  (∀ (x y : Pair) (s : State), exec (.add x y) s = exec (.add y x) s) ∧
  ∀ (x y z : Pair) (s t u : State), exec (.add x y) s = .next t → exec (.add y z) s = .next u →
    exec (.add (resultPair t.outputs) z) s = exec (.add x (resultPair u.outputs)) s

/-- 42_negate R83: a value plus its negation is zero (the source's property S2); negation is an involution, and the negation of a
sum is the sum of the negations. -/
def Obligations.NegIsAnAdditiveInverseAndAnInvolution : Prop :=
  (∀ (x : Pair) (s t : State), exec (.neg x) s = .next t →
    exec (.add x (resultPair t.outputs)) s = .next { s with outputs := ⟨0#64, 0#64, 0#1⟩ } ∧
    exec (.neg (resultPair t.outputs)) s = .next { s with outputs := ⟨x.lo, x.hi, 0#1⟩ }) ∧
  ∀ (x y : Pair) (s t u v : State), exec (.neg x) s = .next t → exec (.neg y) s = .next u →
    exec (.add x y) s = .next v →
    exec (.neg (resultPair v.outputs)) s = exec (.add (resultPair t.outputs) (resultPair u.outputs)) s

/-- 42_negate R82: exactly two values are their own negation, zero and the pattern with only bit 127 set. -/
def Obligations.NegFixesExactlyZeroAndBit127 : Prop :=
  ∀ (x : Pair) (s t : State), exec (.neg x) s = .next t →
    (resultPair t.outputs = x ↔ x = ⟨0#64, 0#64⟩ ∨ x = ⟨0#64, 0x8000000000000000#64⟩)

/-- 42_negate R84: the closed form per limb. -/
def Obligations.NegHasTheClosedFormPerLimb : Prop :=
  ∀ (x : Pair) (s : State), exec (.neg x) s = .next { s with outputs :=
    { rLo := BitVec.ofNat 64 ((2 ^ 64 - x.lo.toNat) % 2 ^ 64)
      rHi := ~~~x.hi + (if x.lo = 0#64 then 1#64 else 0#64)
      rLt := 0#1 } }

/-- 30_encoding R54: the negator adds the built-in constant one, the pair `(1, 0)`, to the complement through the adder, and takes
nothing from `b_lo`, `b_hi`. -/
def Obligations.NegIsAddOfTheComplementAndTheConstantOne : Prop :=
  (∀ (x : Pair) (s : State), exec (.neg x) s = exec (.add ⟨~~~x.lo, ~~~x.hi⟩ ⟨1#64, 0#64⟩) s) ∧
  ∀ s : State, s.inputs.op = 0b001#3 →
    step s = exec (.add ⟨~~~s.inputs.aLo, ~~~s.inputs.aHi⟩ ⟨1#64, 0#64⟩) s

/-- 43_compare R93: `CMP` is a strict total order (irreflexive, exactly one of the two orders for distinct pairs, transitive), with
`(0, 0)` least and the all-ones pair greatest. -/
def Obligations.CmpIsAStrictTotalOrder : Prop :=
  let gives (b : Bit) (x y : Pair) : Prop :=
    ∀ s : State, exec (.cmp x y) s = .next { s with outputs := { rLo := 0#64, rHi := 0#64, rLt := b } }
  (∀ x, gives 0#1 x x) ∧
  (∀ x y, x ≠ y → (gives 1#1 x y ∧ gives 0#1 y x) ∨ (gives 0#1 x y ∧ gives 1#1 y x)) ∧
  (∀ x y z, gives 1#1 x y → gives 1#1 y z → gives 1#1 x z) ∧
  (∀ x, gives 0#1 x ⟨0#64, 0#64⟩) ∧
  ∀ x, gives 0#1 ⟨0xFFFFFFFFFFFFFFFF#64, 0xFFFFFFFFFFFFFFFF#64⟩ x

/-- 41_add R73, the carry-detection idiom one level up: the carry out of the 128-bit sum, which `ADD` drops, is what `CMP` of the sum
against an addend gives. -/
def Obligations.CmpOfTheSumRecoversTheDroppedCarry : Prop :=
  ∀ (x y : Pair) (s t : State), exec (.add x y) s = .next t →
    exec (.cmp (resultPair t.outputs) x) s = .next { s with outputs :=
      { rLo := 0#64, rHi := 0#64, rLt := if val x + val y ≥ 2 ^ 128 then 1#1 else 0#1 } }

/-- 44_multiply_optional R101: `mulw` gives the exact product as high and low word, and loses no bit. -/
def Obligations.WideningMultiplyIsExact : Prop :=
  ∀ x y : Limb,
    (mulw x y).highWord.toNat = x.toNat * y.toNat / 2 ^ 64 ∧
    (mulw x y).lowWord.toNat = x.toNat * y.toNat % 2 ^ 64 ∧
    (mulw x y).highWord.toNat * 2 ^ 64 + (mulw x y).lowWord.toNat = x.toNat * y.toNat

/-- 44_multiply_optional R102: the schoolbook decomposition into 32-bit halves gives the same two words for every input pair. -/
def Obligations.SchoolbookMultiplyAgreesWithTheExactProduct : Prop :=
  ∀ x y : Limb, mulwSchoolbook x y = mulw x y

/-- 44_multiply_optional R107 (the source's property S5): `MUL` is commutative. -/
def Obligations.MulIsCommutative : Prop :=
  ∀ (x y : Pair) (s : State), s.config.hasMul = true →
    ∃ t, exec (.mul x y) s = .next t ∧ exec (.mul y x) s = .next t

/-- 44_multiply_optional R107 (the source's property S6): `MUL` agrees with repeated `ADD`, for every number of times. -/
def Obligations.MulAgreesWithRepeatedAdd : Prop :=
  ∀ (n : Nat) (y : Pair) (s : State), s.config.hasMul = true →
    ∃ sums : Nat → Pair, sums 0 = ⟨0#64, 0#64⟩ ∧
      (∀ k, exec (.add (sums k) y) s = .next { s with outputs := pairResponse (sums (k + 1)) }) ∧
      exec (.mul (pairOf n) y) s = .next { s with outputs := pairResponse (sums n) }

/-- 44_multiply_optional R107: `MUL a_lo, a_hi, v, 0` equals `MUL64 a_lo, a_hi, v`. -/
def Obligations.MulByOneLimbIsMul64 : Prop :=
  ∀ (x : Pair) (v : Limb) (s : State), s.config.hasMul = true →
    ∃ t, exec (.mul x ⟨v, 0#64⟩) s = .next t ∧ exec (.mul64 x v) s = .next t

/-- 44_multiply_optional R109: with `ADD`, `MUL` obeys the ring laws: associative, distributive over `ADD`, `(1, 0)` neutral,
`(0, 0)` absorbing. -/
def Obligations.MulObeysTheRingLaws : Prop :=
  ∀ (x y z : Pair) (s : State), s.config.hasMul = true →
    (∃ xy yz out, exec (.mul x y) s = .next xy ∧ exec (.mul y z) s = .next yz ∧
      exec (.mul (resultPair xy.outputs) z) s = .next out ∧ exec (.mul x (resultPair yz.outputs)) s = .next out) ∧
    (∃ yz xy xz out, exec (.add y z) s = .next yz ∧ exec (.mul x y) s = .next xy ∧ exec (.mul x z) s = .next xz ∧
      exec (.mul x (resultPair yz.outputs)) s = .next out ∧
      exec (.add (resultPair xy.outputs) (resultPair xz.outputs)) s = .next out) ∧
    exec (.mul ⟨1#64, 0#64⟩ x) s = .next { s with outputs := ⟨x.lo, x.hi, 0#1⟩ } ∧
    exec (.mul ⟨0#64, 0#64⟩ x) s = .next { s with outputs := ⟨0#64, 0#64, 0#1⟩ }

/-! ### The data format -/

/-- 10_state R22: `val` and `pair` are inverse bijections between pairs and the numbers below 2^128; equal values have equal
limbs. -/
def Obligations.TwoLimbFormatIsCanonical : Prop :=
  (∀ p : Pair, val p < 2 ^ 128 ∧ pairOf (val p) = p) ∧
  (∀ n < 2 ^ 128, val (pairOf n) = n ∧ ∀ q : Pair, val q = n → q = pairOf n) ∧
  ∀ p q : Pair, val p = val q ↔ p.lo = q.lo ∧ p.hi = q.hi

/-- 20_memory R41: bit `i` of the value is bit `i` of `lo` below 64 and bit `i - 64` of `hi` from 64 to 127, and the joined word
`{hi, lo}` is that value. -/
def Obligations.LowLimbHoldsTheLowBits : Prop :=
  ∀ p : Pair,
    (∀ i < 64, (val p).testBit i = p.lo.getLsbD i) ∧
    (∀ i, 64 ≤ i → i < 128 → (val p).testBit i = p.hi.getLsbD (i - 64)) ∧
    (joined p).toNat = val p

/-! ### Requests, responses and decoding -/

/-- 30_encoding R52 and R53: the code on the `op` port selects the operation, which reads its operands from the ports the table
names; on the packed word of R51 the code is bits 258:256. -/
def Obligations.OpPortSelectsTheOperationAndItsOperands : Prop :=
  (∀ (cfg : Config) (r : Request),
    (r.op = 0b000#3 → decode cfg r = .operation (.add ⟨r.aLo, r.aHi⟩ ⟨r.bLo, r.bHi⟩)) ∧
    (r.op = 0b001#3 → decode cfg r = .operation (.neg ⟨r.aLo, r.aHi⟩)) ∧
    (r.op = 0b010#3 → decode cfg r = .operation (.cmp ⟨r.aLo, r.aHi⟩ ⟨r.bLo, r.bHi⟩)) ∧
    (r.op = 0b011#3 → decode cfg r =
      if cfg.hasMul then .operation (.mul64 ⟨r.aLo, r.aHi⟩ r.bLo) else .reserved 0b011#3) ∧
    (r.op = 0b100#3 → decode cfg r =
      if cfg.hasMul then .operation (.mul ⟨r.aLo, r.aHi⟩ ⟨r.bLo, r.bHi⟩) else .reserved 0b100#3) ∧
    (r.op = 0b101#3 ∨ r.op = 0b110#3 ∨ r.op = 0b111#3 → decode cfg r = .reserved r.op)) ∧
  ∀ (cfg : Config) (w : RequestWord),
    decodeWord cfg w = decode cfg (unpackRequest w) ∧ (unpackRequest w).op.toNat = w.toNat / 2 ^ 256

/-- 30_encoding R51: the packed request `{op, b_hi, b_lo, a_hi, a_lo}` holds every field at its bits and no other bit, so packing
and unpacking undo each other. -/
def Obligations.PackedRequestHoldsExactlyItsFields : Prop :=
  (∀ r : Request, (packRequest r).toNat =
    r.op.toNat * 2 ^ 256 + r.bHi.toNat * 2 ^ 192 + r.bLo.toNat * 2 ^ 128 + r.aHi.toNat * 2 ^ 64 + r.aLo.toNat) ∧
  (∀ r : Request, unpackRequest (packRequest r) = r) ∧
  ∀ w : RequestWord, packRequest (unpackRequest w) = w

/-- 30_encoding R57: the packed response `{r_lt, r_hi, r_lo}` holds every field at its bits and no other bit. -/
def Obligations.PackedResponseHoldsExactlyItsFields : Prop :=
  (∀ r : Response, (packResponse r).toNat = r.rLt.toNat * 2 ^ 128 + r.rHi.toNat * 2 ^ 64 + r.rLo.toNat) ∧
  (∀ r : Response, unpackResponse (packResponse r) = r) ∧
  ∀ w : ResponseWord, packResponse (unpackResponse w) = w

/-- Decoding undoes encoding: the packed request of every instruction that the block has, with every operand at every value,
decodes to that instruction (30_encoding sections 1 to 3). -/
def Obligations.DecodingUndoesEncoding : Prop :=
  ∀ (cfg : Config) (i : Instr), WellFormed cfg i = true → decodeWord cfg (encodeWord i) = .operation i

/-- Encoding undoes decoding but for the ports that the operation ignores, which it sets to zero (30_encoding R53, R55). -/
def Obligations.EncodingUndoesDecodingOnThePortsRead : Prop :=
  ∀ (cfg : Config) (r : Request) (i : Instr), decode cfg r = .operation i →
    WellFormed cfg i = true ∧
    encode i = { r with
      bLo := if r.op = 0b001#3 then 0#64 else r.bLo
      bHi := if r.op = 0b001#3 ∨ r.op = 0b011#3 then 0#64 else r.bHi }

/-- Words written out from 30_encoding R51 and R52 with the operands of 95_test_vectors (S-d, P1 step 1, S-e, S-a, P5 step 4) decode
to the instructions they stand for. -/
def Obligations.WrittenOutRequestsDecode : Prop :=
  decodeWord .default 0x0_0000000000000000_0000000000000001_0000000000000000_FFFFFFFFFFFFFFFF#259 =
    .operation (.add ⟨0xFFFFFFFFFFFFFFFF#64, 0#64⟩ ⟨1#64, 0#64⟩) ∧
  decodeWord .default 0x1_0000000000000000_0000000000000000_0000000000000000_0000000000000001#259 =
    .operation (.neg ⟨1#64, 0#64⟩) ∧
  decodeWord .default 0x2_0000000000000001_0000000000000003_0000000000000000_0000000000000005#259 =
    .operation (.cmp ⟨5#64, 0#64⟩ ⟨3#64, 1#64⟩) ∧
  decodeWord .withMul 0x3_0000000000000000_0000000000000002_000000000000000D_000000000000000C#259 =
    .operation (.mul64 ⟨12#64, 13#64⟩ 2#64) ∧
  decodeWord .withMul 0x4_0000000000000002_8000000000000000_0000000000000000_0000000000000003#259 =
    .operation (.mul ⟨3#64, 0#64⟩ ⟨0x8000000000000000#64, 2#64⟩)

/-- 30_encoding R55: a port that the operation ignores does not change the response (`b_lo`, `b_hi` for `NEG`, `b_hi` for `MUL64`), and
the written request has zero there. -/
def Obligations.IgnoredPortsDoNotChangeTheResponse : Prop :=
  (∀ (r : Request) (x y : Limb) (u : Response) (s : State), r.op = 0b001#3 →
    (evaluate { r with bLo := x, bHi := y } u s).1 = (evaluate { r with bLo := 0#64, bHi := 0#64 } u s).1) ∧
  (∀ (r : Request) (y : Limb) (u : Response) (s : State), r.op = 0b011#3 →
    (evaluate { r with bHi := y } u s).1 = (evaluate { r with bHi := 0#64 } u s).1) ∧
  (∀ x : Pair, (encode (.neg x)).bLo = 0#64 ∧ (encode (.neg x)).bHi = 0#64) ∧
  ∀ (x : Pair) (v : Limb), (encode (.mul64 x v)).bHi = 0#64

/-- 30_encoding section 4: an output outside the operation's result view is zero. -/
def Obligations.OutputsOutsideTheResultViewAreZero : Prop :=
  ∀ (i : Instr) (s t : State), exec i s = .next t →
    match i with
    | .cmp _ _ => t.outputs.rLo = 0#64 ∧ t.outputs.rHi = 0#64
    | _        => t.outputs.rLt = 0#1

/-- The packed text `op:b_hi_b_lo_a_hi_a_lo` of a request and `r_lt:r_hi_r_lo` of a response (30_encoding sections 1 and 4) read back
to what was written. -/
def Obligations.PackedTextsReadBack : Prop :=
  (∀ r : Request, readRequestText (requestText r) = some r) ∧
  ∀ r : Response, readResponseText (responseText r) = some r

/-- A trace line (30_encoding section 6), a request alone or with the result view of a response, reads back to what was written. -/
def Obligations.TraceLinesReadBack : Prop :=
  ∀ i : Instr,
    readTrace (traceText { instr := i, result := none }) = some { instr := i, result := none } ∧
    ∀ r : Response, readTrace (traceText { instr := i, result := some (resultView i r) }) =
      some { instr := i, result := some (resultView i r) }

/-! ### One step -/

/-- A step runs the instruction its request decodes to, and does nothing around it: there is no program counter to move and no
delay slot (10_state R26). -/
def Obligations.StepRunsTheDecodedInstruction : Prop :=
  ∀ (s : State) (i : Instr), decode s.config s.inputs = .operation i → step s = exec i s

/-- 30_encoding section 5, 60_exceptions R124: a request with a reserved `op` is refused by name, whatever its operands and whatever
stands on the outputs. -/
def Obligations.ReservedRequestIsRefusedByName : Prop :=
  ∀ s : State,
    (s.inputs.op = 0b101#3 ∨ s.inputs.op = 0b110#3 ∨ s.inputs.op = 0b111#3 ∨
      (s.config.hasMul = false ∧ (s.inputs.op = 0b011#3 ∨ s.inputs.op = 0b100#3))) →
    step s = .refused (.reservedOp s.inputs.op)

/-- 44_multiply_optional R100: without `HAS_MUL` the codes 011 and 100 are reserved and no multiply runs; the default is false. -/
def Obligations.MultipliesAreReservedWithoutTheExtension : Prop :=
  (∀ (s : State), s.config.hasMul = false →
    (∀ x v, exec (.mul64 x v) s = .refused (.reservedOp 0b011#3)) ∧
    (∀ x y, exec (.mul x y) s = .refused (.reservedOp 0b100#3)) ∧
    (s.inputs.op = 0b011#3 ∨ s.inputs.op = 0b100#3 → step s = .refused (.reservedOp s.inputs.op))) ∧
  Config.default.hasMul = false ∧ State.reset.config = Config.default

/-- 60_exceptions R120: the list of causes is empty, no step ends in a fault, and every request with a defined `op` completes, whatever
its operands. -/
def Obligations.NoCauseExistsAndDefinedRequestsComplete : Prop :=
  (∀ _ : Fault, False) ∧
  (∀ (s : State) (f : Fault), step s ≠ .fault f) ∧
  ∀ s : State, DefinedOp s.config s.inputs.op = true → ∃ t, step s = .next t

/-- 10_state R31: the block never changes what stands on its input ports; the response is a function of the snapshot. The parameter is
as unchangeable. -/
def Obligations.InputPortsAreNeverChanged : Prop :=
  (∀ (i : Instr) (s t : State), exec i s = .next t → t.inputs = s.inputs ∧ t.config = s.config) ∧
  ∀ s t : State, step s = .next t →
    t.inputs = s.inputs ∧ t.config = s.config ∧
      ∀ s' : State, s'.config = s.config → s'.inputs = s.inputs → step s' = .next t

/-- 10_state R20: nothing is kept from one evaluation to the next: two blocks with the same parameter and the same request take the
same step, whatever either drove before. -/
def Obligations.StepDependsOnTheRequestAlone : Prop :=
  ∀ s s' : State, s.config = s'.config → s.inputs = s'.inputs → step s = step s'

/-- The headline: one step of the machine, written from the limb-level pseudocode, is the function `eval` of the value-level rules
(R72, R81, R91, R104, R106) at every request, and refuses exactly the reserved ones. -/
def Obligations.StepIsTheValueLevelFunction : Prop :=
  ∀ s : State, step s =
    match evalContract s.config s.inputs with
    | some r => .next { s with outputs := r }
    | none   => .refused (.reservedOp s.inputs.op)

/-- Every step leaves the outputs settled (70_reset_and_hazards sections 1 and 3): they carry the value-level `eval` of the inputs, from
every state whatever its outputs were; in particular a step keeps the invariant `Settled`. -/
def Obligations.EveryStepSettlesTheOutputs : Prop :=
  (∀ s t : State, Settled s → step s = .next t → Settled t) ∧
  ∀ s t : State, step s = .next t → Settled t

/-- A block at rest stays at rest: a step from a settled state changes nothing (20_memory section 3, "the same request gives the same
response every time"), and a step from any state reaches such a state in one. -/
def Obligations.SettledStatesAreExactlyTheFixedPoints : Prop :=
  (∀ s : State, Settled s ↔ step s = .next s) ∧
  ∀ s t : State, step s = .next t → step t = .next t

/-- Right after power is applied the outputs carry `eval` of the inputs. The inputs there are the MODEL'S CHOICE (all zero, log entry 3):
the spec gives no reset value. -/
def Obligations.PowerOnStateIsSettled : Prop :=
  Settled State.reset

/-! ### The host and several blocks -/

/-- 70_reset_and_hazards R142: nothing has to be initialised; the first request presented after power-on gets its defined response, on
a block of either kind. -/
def Obligations.FirstRequestAfterPowerOnIsServed : Prop :=
  ∀ (cfg : Config) (r : Request) (response u : Response), evalContract cfg r = some response →
    (evaluate r u { State.reset with config := cfg }).1 = some response

/-- 30_encoding section 5: a reserved request gets no response and does no lasting harm; the next request with a defined `op` gets its
defined response. -/
def Obligations.ReservedRequestDoesNoLastingHarm : Prop :=
  ∀ (bad good : Request) (u u' : Response) (s : State), DefinedOp s.config bad.op = false →
    DefinedOp s.config good.op = true →
    (evaluate bad u s).1 = none ∧
    ∃ response, evalContract s.config good = some response ∧
      (evaluate good u' (evaluate bad u s).2).1 = some response

/-- 20_memory R46: evaluations are independent. For any list of requests, in any order, to one block or spread over several, each gets
the response `eval(request)`, with reserved requests (which get none) anywhere among them. -/
def Obligations.EvaluationsAreIndependent : Prop :=
  (∀ (requests : List (Request × Response)) (s : State),
    (serve requests s).1 = requests.map fun p => evalContract s.config p.1) ∧
  ∀ (cfg : Config) (jobs : List Job) (bank : Bank), (∀ s ∈ bank, s.config = cfg) →
    (∀ j ∈ jobs, j.block < bank.length) →
    (serveBank jobs bank).1 = jobs.map fun j => evalContract cfg j.request

/-- 60_exceptions section 5: the blocks of a system share nothing. Serving a request on one leaves every other as it was, and what it
answers is what that block alone answers. -/
def Obligations.BlocksShareNothing : Prop :=
  ∀ (n : Nat) (r : Request) (u : Response) (bank : Bank),
    (evaluateAt n r u bank).2.length = bank.length ∧
    (∀ m, m ≠ n → (evaluateAt n r u bank).2[m]? = bank[m]?) ∧
    ∀ s, bank[n]? = some s →
      (evaluateAt n r u bank).1 = (evaluate r u s).1 ∧ (evaluateAt n r u bank).2[n]? = some (evaluate r u s).2
end

