-- ==== Sys2Proof/Laws/Decode.lean ====
section
/-!
SUPPORT. The decoder case by case, and its one inversion lemma.
-/

namespace Sys2Proof

open Machine

variable {cfg : Config} {r : Request}

theorem decode_add (h : r.op = opAdd) :
    decode cfg r = .operation (.add (firstOperand r) (secondOperand r)) := by
  simp [decode, h]

theorem decode_neg (h : r.op = opNeg) : decode cfg r = .operation (.neg (firstOperand r)) := by
  simp [decode, h, opNeg, opAdd]

theorem decode_cmp (h : r.op = opCmp) :
    decode cfg r = .operation (.cmp (firstOperand r) (secondOperand r)) := by
  simp [decode, h, opCmp, opNeg, opAdd]

theorem decode_mul64 (h : r.op = opMul64) (hm : cfg.hasMul = true) :
    decode cfg r = .operation (.mul64 (firstOperand r) (multiplierOperand r)) := by
  simp [decode, h, hm, opMul64, opCmp, opNeg, opAdd]

theorem decode_mul (h : r.op = opMul) (hm : cfg.hasMul = true) :
    decode cfg r = .operation (.mul (firstOperand r) (secondOperand r)) := by
  simp [decode, h, hm, opMul, opMul64, opCmp, opNeg, opAdd]

/-- Everything the decoder can say. -/
theorem decode_cases (cfg : Config) (r : Request) :
    (r.op = opAdd ∧ decode cfg r = .operation (.add (firstOperand r) (secondOperand r))) ∨
    (r.op = opNeg ∧ decode cfg r = .operation (.neg (firstOperand r))) ∨
    (r.op = opCmp ∧ decode cfg r = .operation (.cmp (firstOperand r) (secondOperand r))) ∨
    (r.op = opMul64 ∧ cfg.hasMul = true ∧
      decode cfg r = .operation (.mul64 (firstOperand r) (multiplierOperand r))) ∨
    (r.op = opMul ∧ cfg.hasMul = true ∧ decode cfg r = .operation (.mul (firstOperand r) (secondOperand r))) ∨
    (decode cfg r = .reserved r.op ∧ r.op ≠ opAdd ∧ r.op ≠ opNeg ∧ r.op ≠ opCmp ∧
      ¬(r.op = opMul64 ∧ cfg.hasMul = true) ∧ ¬(r.op = opMul ∧ cfg.hasMul = true)) := by
  by_cases h0 : r.op = opAdd
  · exact .inl ⟨h0, decode_add h0⟩
  by_cases h1 : r.op = opNeg
  · exact .inr (.inl ⟨h1, decode_neg h1⟩)
  by_cases h2 : r.op = opCmp
  · exact .inr (.inr (.inl ⟨h2, decode_cmp h2⟩))
  by_cases h3 : r.op = opMul64 ∧ cfg.hasMul = true
  · exact .inr (.inr (.inr (.inl ⟨h3.1, h3.2, decode_mul64 h3.1 h3.2⟩)))
  by_cases h4 : r.op = opMul ∧ cfg.hasMul = true
  · exact .inr (.inr (.inr (.inr (.inl ⟨h4.1, h4.2, decode_mul h4.1 h4.2⟩))))
  exact .inr (.inr (.inr (.inr (.inr ⟨by rw [decode, if_neg h0, if_neg h1, if_neg h2, if_neg h3, if_neg h4],
    h0, h1, h2, h3, h4⟩))))

/-- A reserved verdict names the code that stands on the `op` port. -/
theorem decode_reserved {code : OpCode} (h : decode cfg r = .reserved code) : code = r.op := by
  obtain ⟨_, e⟩ | ⟨_, e⟩ | ⟨_, e⟩ | ⟨_, _, e⟩ | ⟨_, _, e⟩ | ⟨e, _⟩ := decode_cases cfg r <;> rw [e] at h <;> cases h
  rfl

end Sys2Proof
end

