-- ==== Sys2Proof/Laws/Ops.lean ====
section
/-!
SUPPORT. One lemma per shared operation, saying everything it can do.
-/

namespace Sys2Proof.Machine

/-! ### Reaching the ports -/

/-- Everything `respond` can do: drive the outputs. -/
theorem respond_next {r : Response} {s t : State} (h : respond r s = .next t) : t = { s with outputs := r } := by
  simpa [respond, eq_comm] using h

/-- `respondWithMul` on a block with extension `M`. -/
theorem respondWithMul_present {s : State} (h : s.config.hasMul = true) (op : OpCode) (r : Response) :
    respondWithMul op r s = .next { s with outputs := r } := by
  simp [respondWithMul, respond, h]

/-- `respondWithMul` on a block without it. -/
theorem respondWithMul_absent {s : State} (h : s.config.hasMul = false) (op : OpCode) (r : Response) :
    respondWithMul op r s = .refused (.reservedOp op) := by
  simp [respondWithMul, h]

/-- Everything `respondWithMul` can do when it answers: the block has the extension and the outputs are driven. -/
theorem respondWithMul_next {op : OpCode} {r : Response} {s t : State} (h : respondWithMul op r s = .next t) :
    s.config.hasMul = true ∧ t = { s with outputs := r } := by
  unfold respondWithMul at h
  split at h
  · exact ⟨‹_›, respond_next h⟩
  · cases h

/-! ### Responses -/

@[simp] theorem pairResponse_rLo (p : Pair) : (pairResponse p).rLo = p.lo := rfl
@[simp] theorem pairResponse_rHi (p : Pair) : (pairResponse p).rHi = p.hi := rfl
@[simp] theorem pairResponse_rLt (p : Pair) : (pairResponse p).rLt = 0#1 := rfl
@[simp] theorem boolResponse_rLo (b : Bool) : (boolResponse b).rLo = 0#64 := rfl
@[simp] theorem boolResponse_rHi (b : Bool) : (boolResponse b).rHi = 0#64 := rfl
@[simp] theorem boolResponse_rLt (b : Bool) : (boolResponse b).rLt = BitVec.ofBool b := rfl
@[simp] theorem resultPair_pairResponse (p : Pair) : resultPair (pairResponse p) = p := rfl

/-! ### Values and pairs -/

/-- A pair has one form: equal limbs, equal pairs. -/
theorem pair_ext {p q : Pair} (hlo : p.lo = q.lo) (hhi : p.hi = q.hi) : p = q := by
  cases p; cases q; simp_all

/-- Two pairs are equal when both limbs agree as numbers. -/
theorem pair_ext_toNat {p q : Pair} (hlo : p.lo.toNat = q.lo.toNat) (hhi : p.hi.toNat = q.hi.toNat) : p = q :=
  pair_ext (BitVec.eq_of_toNat_eq hlo) (BitVec.eq_of_toNat_eq hhi)

theorem pairOf_lo_toNat (n : Nat) : (pairOf n).lo.toNat = n % 2 ^ 64 := by
  simp [pairOf]

theorem pairOf_hi_toNat (n : Nat) : (pairOf n).hi.toNat = n / 2 ^ 64 % 2 ^ 64 := by
  simp [pairOf]

/-! ### Limb arithmetic, as numbers -/

theorem add64_toNat (x y : Limb) : (add64 x y).toNat = (x.toNat + y.toNat) % 2 ^ 64 := by
  simp [add64, BitVec.toNat_add]

theorem carryLow_eq_decide (lo lo1 : Limb) : carryLow lo lo1 = decide (lo.toNat < lo1.toNat) := rfl

theorem addCarry_toNat (x : Limb) (c : Bool) : (addCarry x c).toNat = (x.toNat + c.toNat) % 2 ^ 64 := by
  cases c
  · simpa [addCarry] using (Nat.mod_eq_of_lt x.isLt).symm
  · simp [addCarry, add64_toNat]

/-- The adder's low limb. -/
theorem addPair_lo_toNat (x y : Pair) : (addPair x y).lo.toNat = (x.lo.toNat + y.lo.toNat) % 2 ^ 64 :=
  add64_toNat _ _

/-- The adder's high limb, with the detected carry as a number. -/
theorem addPair_hi_toNat (x y : Pair) : (addPair x y).hi.toNat =
    (x.hi.toNat + y.hi.toNat + (carryLow (add64 x.lo y.lo) x.lo).toNat) % 2 ^ 64 := by
  simp only [addPair, addCarry_toNat, add64_toNat]
  omega

/-- The comparator by the order of its limbs as numbers. -/
theorem lessThan_eq_true_iff (x y : Pair) : lessThan x y = true ↔
    x.hi.toNat < y.hi.toNat ∨ x.hi.toNat = y.hi.toNat ∧ x.lo.toNat < y.lo.toNat := by
  simp only [lessThan, BitVec.ult_eq_decide, decide_eq_true_eq]
  split
  · simp only [Bool.false_eq_true, false_iff]; omega
  · split
    · simp only [true_iff]; omega
    · simp only [decide_eq_true_eq]; omega

/-- The words of the widening multiply. -/
theorem mulw_lowWord_toNat (x y : Limb) : (mulw x y).lowWord.toNat = x.toNat * y.toNat % 2 ^ 64 := by
  simp [mulw]

theorem mulw_highWord_toNat (x y : Limb) : (mulw x y).highWord.toNat = x.toNat * y.toNat / 2 ^ 64 % 2 ^ 64 := by
  simp [mulw]

/-- The limbs of `MUL64`. -/
theorem mul64Pair_lo_toNat (x : Pair) (v : Limb) : (mul64Pair x v).lo.toNat = x.lo.toNat * v.toNat % 2 ^ 64 :=
  mulw_lowWord_toNat _ _

theorem mul64Pair_hi_toNat (x : Pair) (v : Limb) : (mul64Pair x v).hi.toNat =
    (x.hi.toNat * v.toNat % 2 ^ 64 + x.lo.toNat * v.toNat / 2 ^ 64 % 2 ^ 64) % 2 ^ 64 := by
  simp only [mul64Pair, add64_toNat, mulw_lowWord_toNat, mulw_highWord_toNat]

/-- The limbs of `MUL`, through `MUL64`. -/
theorem mulPair_lo (x y : Pair) : (mulPair x y).lo = (mul64Pair y x.lo).lo := rfl

theorem mulPair_hi_toNat (x y : Pair) : (mulPair x y).hi.toNat =
    ((mul64Pair y x.hi).lo.toNat + (mul64Pair y x.lo).hi.toNat) % 2 ^ 64 :=
  add64_toNat _ _

end Sys2Proof.Machine
end

