-- ==== Sys2Proof/Laws/PerInstr.lean ====
section
/-!
SUPPORT. The family `Encoding`: for each constructor of `Instr`, its request decodes to it on the blocks that have it, and on no
other block to any operation.
-/

namespace Sys2Proof.Laws.Encoding

/-- What the family says of an instruction. -/
def Statement (i : Instr) : Prop :=
  ∀ cfg : Config, decode cfg (encode i) = if WellFormed cfg i then .operation i else .reserved (opCodeOf i)

theorem add (x y : Pair) : Statement (.add x y) := fun _ => decode_add rfl

theorem neg (x : Pair) : Statement (.neg x) := fun _ => decode_neg rfl

theorem cmp (x y : Pair) : Statement (.cmp x y) := fun _ => decode_cmp rfl

theorem mul64 (x : Pair) (v : Limb) : Statement (.mul64 x v) := fun cfg => by
  cases h : cfg.hasMul
  · simp [decode, encode, opCodeOf, WellFormed, h, opAdd, opNeg, opCmp, opMul64, opMul]
  · rw [decode_mul64 rfl h]; simp only [WellFormed, h, if_true]; rfl

theorem mul (x y : Pair) : Statement (.mul x y) := fun cfg => by
  cases h : cfg.hasMul
  · simp [decode, encode, opCodeOf, WellFormed, h, opAdd, opNeg, opCmp, opMul64, opMul]
  · rw [decode_mul rfl h]; simp only [WellFormed, h, if_true]; rfl

end Sys2Proof.Laws.Encoding
end

