-- ==== Sys2Proof/Laws/State.lean ====
section
/-!
SUPPORT. The fields of a state after each update of it: driving the outputs, presenting a request, placing a table word.
-/

namespace Sys2Proof.Machine

variable (s : State) (r : Request) (u : Response) (nbits w : Nat)

@[simp] theorem present_config : (present r u s).config = s.config := rfl
@[simp] theorem present_inputs : (present r u s).inputs = r := rfl
@[simp] theorem present_outputs : (present r u s).outputs = u := rfl
@[simp] theorem sample_present : sample (present r u s) = u := rfl
@[simp] theorem sample_driven : sample { s with outputs := u } = u := rfl

@[simp] theorem withFetchWord_inputs : (s.withFetchWord nbits w).inputs = tableRequest nbits w := rfl
@[simp] theorem withFetchWord_outputs : (s.withFetchWord nbits w).outputs = s.outputs := rfl

@[simp] theorem reset_hasMul : State.reset.config.hasMul = false := rfl

/-- Two states that differ in their outputs only give the same state once an evaluation has driven them. -/
theorem driven_eq_of_ports {s s' : State} (hc : s.config = s'.config) (hi : s.inputs = s'.inputs) (r : Response) :
    ({ s with outputs := r } : State) = { s' with outputs := r } := by
  cases s; cases s'; simp_all

end Sys2Proof.Machine
end

