-- ==== Sys2Proof/Laws/Step.lean ====
section
/-!
SUPPORT. What `exec`, `step` and `evaluate` can do, said once.
-/

namespace Sys2Proof.Machine

/-- The response an instruction's meaning drives, as the shared operation that computes it. -/
def drivenBy : Instr → Response
  | .add x y   => pairResponse (addPair x y)
  | .neg x     => pairResponse (negPair x)
  | .cmp x y   => boolResponse (lessThan x y)
  | .mul64 x v => pairResponse (mul64Pair x v)
  | .mul x y   => pairResponse (mulPair x y)

/-- Everything `exec` can do: an instruction of the block drives its response on the outputs, and one the block does not have is
refused by its code. -/
theorem exec_eq_if_wellFormed (i : Instr) (s : State) :
    exec i s = if WellFormed s.config i then .next { s with outputs := drivenBy i }
      else .refused (.reservedOp (opCodeOf i)) := by
  cases i <;> rfl

theorem exec_next {i : Instr} {s t : State} (h : exec i s = .next t) :
    WellFormed s.config i = true ∧ t = { s with outputs := drivenBy i } := by
  rw [exec_eq_if_wellFormed] at h
  split at h
  · cases h; exact ⟨‹_›, rfl⟩
  · cases h

/-- `step` where the decoder reads an operation. -/
theorem step_operation {s : State} {i : Instr} (h : decode s.config s.inputs = .operation i) : step s = exec i s := by
  simp only [step, h]

/-- `step` where the decoder reads a reserved code. -/
theorem step_reserved {s : State} {code : OpCode} (h : decode s.config s.inputs = .reserved code) :
    step s = .refused (.reservedOp code) := by
  simp only [step, h]

/-- Everything a step that answers can have done: decode an operation and run it. -/
theorem step_next {s t : State} (h : step s = .next t) :
    ∃ i, decode s.config s.inputs = .operation i ∧ exec i s = .next t := by
  unfold step at h
  split at h
  · exact ⟨_, ‹_›, h⟩
  · cases h

/-- A request that `step` answers is served with what it drives. -/
theorem evaluate_of_next {r : Request} {u : Response} {s t : State} (h : step (present r u s) = .next t) :
    evaluate r u s = (some t.outputs, t) := by
  simp only [evaluate, h, sample]

/-- A request that `step` refuses is served with nothing. -/
theorem evaluate_of_refused {r : Request} {u : Response} {s : State} {e : Refusal}
    (h : step (present r u s) = .refused e) : evaluate r u s = (none, present r u s) := by
  simp only [evaluate, h]

/-- Serving a request keeps the parameter: the answered state is the presented one with its outputs driven. -/
theorem evaluate_config (r : Request) (u : Response) (s : State) : (evaluate r u s).2.config = s.config := by
  cases h : step (present r u s) with
  | next t =>
    obtain ⟨i, -, hi⟩ := step_next h
    rw [evaluate_of_next h, (exec_next hi).2]
    rfl
  | fault f => cases f
  | refused e => rw [evaluate_of_refused h]; rfl

end Sys2Proof.Machine
end

