-- ==== Sys2Proof/Tests/Slice0.lean ====
section
/-!
SUPPORT. Tests of the model against the spec's own vectors (95_test_vectors, cited by row), smoke tests of the checks, and for every
statement of Certificates/Slice0/Obligations.lean that has hypotheses a state and operands that meet them (`witness_…`).
`M` of 95_test_vectors is `ones` here and `H` is `topBit`.
-/

namespace Sys2Proof.Tests

open Sys2Proof.Machine

-- The packed request has 259 bits, just past the width up to which Lean computes powers by default.
set_option exponentiation.threshold 300

/-! ### Helpers -/

def ones : Limb := 0xFFFFFFFFFFFFFFFF#64
def topBit : Limb := 0x8000000000000000#64

/-- Outputs that no vector below expects. -/
def junk : Response := { rLo := 0xAAAAAAAAAAAAAAAA#64, rHi := 0x5555555555555555#64, rLt := 1#1 }

/-- A block with a request on its inputs and junk on its outputs. -/
def block (hasMul : Bool) (r : Request) : State := { config := { hasMul := hasMul }, inputs := r, outputs := junk }

/-- The response of one step, and none if it stops. -/
def answer (s : State) : Option Response :=
  match step s with
  | .next t    => some (sample t)
  | .fault _   => none
  | .refused _ => none

/-- The refused code of one step. -/
def refusedCode (s : State) : Option OpCode :=
  match step s with
  | .refused (.reservedOp code) => some code
  | _                           => none

/-! ### WellFormed: an ill-formed term for each check, and its well-formed neighbour -/

theorem test_mul64_needs_the_extension :
    WellFormed .default (.mul64 ⟨12#64, 13#64⟩ 2#64) = false ∧ WellFormed .withMul (.mul64 ⟨12#64, 13#64⟩ 2#64) = true := by decide

theorem test_mul_needs_the_extension :
    WellFormed .default (.mul ⟨3#64, 0#64⟩ ⟨5#64, 7#64⟩) = false ∧ WellFormed .withMul (.mul ⟨3#64, 0#64⟩ ⟨5#64, 7#64⟩) = true := by
  decide

/-! ### Decoding: words written out from 30_encoding R51 and R52, operands of 95_test_vectors -/

/-- S-d: `0:…`, every operand port in its place. -/
theorem test_decode_add : decodeWord .default 0x0_0000000000000004_0000000000000003_0000000000000002_0000000000000001#259 =
    .operation (.add ⟨1#64, 2#64⟩ ⟨3#64, 4#64⟩) := by decide

/-- N13: the ignored ports hold all ones. -/
theorem test_decode_neg : decodeWord .default 0x1_FFFFFFFFFFFFFFFF_FFFFFFFFFFFFFFFF_0000000000000002_0000000000000001#259 =
    .operation (.neg ⟨1#64, 2#64⟩) := by decide

/-- S-e. -/
theorem test_decode_cmp : decodeWord .default 0x2_0000000000000001_0000000000000003_0000000000000000_0000000000000005#259 =
    .operation (.cmp ⟨5#64, 0#64⟩ ⟨3#64, 1#64⟩) := by decide

/-- M13: `b_hi` is ignored and `v` is `b_lo`. -/
theorem test_decode_mul64 : decodeWord .withMul 0x3_FFFFFFFFFFFFFFFF_0000000000000002_000000000000000D_000000000000000C#259 =
    .operation (.mul64 ⟨12#64, 13#64⟩ 2#64) := by decide

/-- P5 step 4. -/
theorem test_decode_mul : decodeWord .withMul 0x4_0000000000000002_8000000000000000_0000000000000000_0000000000000003#259 =
    .operation (.mul ⟨3#64, 0#64⟩ ⟨topBit, 2#64⟩) := by decide

/-- The refusals of 95_test_vectors 2.7 on the default hardware, from code 3 on. -/
theorem test_decode_reserved_by_default : ∀ code : OpCode, 3 ≤ code.toNat →
    decode .default { op := code, aLo := 1#64, aHi := 2#64, bLo := 3#64, bHi := 4#64 } = .reserved code := by decide

/-- The refusals of 95_test_vectors 2.7 with the extension, from code 5 on. -/
theorem test_decode_reserved_with_mul : ∀ code : OpCode, 5 ≤ code.toNat →
    decode .withMul { op := code, aLo := 1#64, aHi := 2#64, bLo := 3#64, bHi := 4#64 } = .reserved code := by decide

/-- The packed request of P1 step 1 and the packed response of S-e. -/
theorem test_packed_words :
    encodeWord (.neg ⟨1#64, 0#64⟩) = 0x1_0000000000000000_0000000000000000_0000000000000000_0000000000000001#259 ∧
    packResponse ⟨0#64, 0#64, 1#1⟩ = 0x1_0000000000000000_0000000000000000#129 := by decide

/-- The table's words, on the low bits of a byte. -/
theorem test_table_words : (List.range 8).map (decodeTableWord 8) =
    [some (.add ⟨0#64, 0#64⟩ ⟨0#64, 0#64⟩), some (.neg ⟨0#64, 0#64⟩), some (.cmp ⟨0#64, 0#64⟩ ⟨0#64, 0#64⟩),
     some (.mul64 ⟨0#64, 0#64⟩ 0#64), some (.mul ⟨0#64, 0#64⟩ ⟨0#64, 0#64⟩), none, none, none] := by decide

/-- Each table word placed after reset is run by the next step; the reserved ones are refused. -/
theorem test_table_words_run : (List.range 8).map (fun w => (answer (State.reset.withFetchWord 8 w)).isSome) =
    [true, true, true, true, true, false, false, false] := by decide

/-! ### Instructions, by the rows of 95_test_vectors section 2 -/

/-- A7: the high sum does not wrap, its increment does. -/
theorem test_add_increment_wraps :
    answer (block false ⟨opAdd, ones, topBit, 1#64, 0x7FFFFFFFFFFFFFFF#64⟩) = some ⟨0#64, 0#64, 0#1⟩ := by decide

/-- A12: the carry test at its edge. -/
theorem test_add_carry_edge : answer (block false ⟨opAdd, ones, 0#64, ones, 0#64⟩) =
    some ⟨0xFFFFFFFFFFFFFFFE#64, 1#64, 0#1⟩ := by decide

/-- N4, with ones on the ignored ports: the carry reaches the high limb. -/
theorem test_neg_carry_into_high : answer (block false ⟨opNeg, 0#64, 1#64, ones, ones⟩) = some ⟨0#64, ones, 0#1⟩ := by decide

/-- N8. -/
theorem test_neg_general : answer (block false ⟨opNeg, 0x0123456789ABCDEF#64, 0xFEDCBA9876543210#64, 0#64, 0#64⟩) =
    some ⟨0xFEDCBA9876543211#64, 0x0123456789ABCDEF#64, 0#1⟩ := by decide

/-- C17: high limb greater, low limb smaller. -/
theorem test_cmp_high_decides : answer (block false ⟨opCmp, 0#64, ones, ones, 0#64⟩) = some ⟨0#64, 0#64, 0#1⟩ := by decide

/-- C19: equal high limbs, unsigned low limbs. -/
theorem test_cmp_falls_through : answer (block false ⟨opCmp, 1#64, 0#64, topBit, 0#64⟩) = some ⟨0#64, 0#64, 1#1⟩ := by decide

/-- M14, with ones on the ignored port: the add of step 3 wraps. -/
theorem test_mul64_step3_wraps : answer (block true ⟨opMul64, ones, 0xFFFFFFFFFFFFFFFE#64, ones, ones⟩) =
    some ⟨1#64, 0#64, 0#1⟩ := by decide

/-- M15: both products have a high word, the second one's is dropped. -/
theorem test_mul64_drops_second_high_word : answer (block true ⟨opMul64, ones, topBit, 3#64, 0#64⟩) =
    some ⟨0xFFFFFFFFFFFFFFFD#64, 0x8000000000000002#64, 0#1⟩ := by decide

/-- X7. -/
theorem test_mul_general : answer (block true ⟨opMul, 0x0123456789ABCDEF#64, 0xFEDCBA9876543210#64, 0xFEDCBA9876543210#64,
    0x0123456789ABCDEF#64⟩) = some ⟨0x2236D88FE5618CF0#64, 0xBCB448E0E2B4BD63#64, 0#1⟩ := by decide

/-- X13: only `lo2` reaches the high limb. -/
theorem test_mul_by_2_pow_64 : answer (block true ⟨opMul, 0#64, 1#64, 5#64, 9#64⟩) = some ⟨0#64, 5#64, 0#1⟩ := by decide

/-- 95_test_vectors 2.6, last row, for `mulw` and its schoolbook form. -/
theorem test_mulw_general :
    mulw 0x0123456789ABCDEF#64 0xFEDCBA9876543210#64 = ⟨0x0121FA00AD77D742#64, 0x2236D88FE5618CF0#64⟩ ∧
    mulwSchoolbook 0x0123456789ABCDEF#64 0xFEDCBA9876543210#64 = ⟨0x0121FA00AD77D742#64, 0x2236D88FE5618CF0#64⟩ := by decide

/-- 95_test_vectors 2.7: code 3 is refused on the default hardware, by its name. -/
theorem test_mul64_reserved_by_default : refusedCode (block false ⟨opMul64, 12#64, 13#64, 2#64, 0#64⟩) = some opMul64 := by decide

/-! ### Texts -/

/-- S-a as 30_encoding R61 writes it, in decimal; the literals of R62 in both bases. -/
theorem test_trace_line_read :
    readTrace ['M', 'U', 'L', '6', '4', ' ', '1', '2', ',', ' ', '0', 'x', 'D', ',', ' ', '2', ' ', '-', '>', ' ', '2', '4', ',', ' ',
      '0', 'x', '1', 'a'] = some ⟨.mul64 ⟨12#64, 13#64⟩ 2#64, some (.value ⟨24#64, 26#64⟩)⟩ := by decide

/-- A literal must fit its port: `r_lt` is 0 or 1. -/
theorem test_trace_line_must_fit :
    readTrace ['C', 'M', 'P', ' ', '5', ',', '0', ',', '3', ',', '1', ' ', '-', '>', ' ', '2'] = none ∧
    readTrace ['C', 'M', 'P', ' ', '5', ',', '0', ',', '3', ',', '1', ' ', '-', '>', ' ', '1'] =
      some ⟨.cmp ⟨5#64, 0#64⟩ ⟨3#64, 1#64⟩, some (.less 1#1)⟩ := by decide

/-- A packed response of P2 step 1 (30_encoding R57). -/
theorem test_response_text : responseText ⟨0xFEDCBA9876543211#64, 0x0123456789ABCDEF#64, 0#1⟩ =
    ['0', ':', '0', '1', '2', '3', '4', '5', '6', '7', '8', '9', 'A', 'B', 'C', 'D', 'E', 'F', '_',
     'F', 'E', 'D', 'C', 'B', 'A', '9', '8', '7', '6', '5', '4', '3', '2', '1', '1'] := by decide

/-! ### The host: program P3 of 95_test_vectors, first branch, as a served list with a reserved request among it -/

theorem test_serve_program_p3 :
    (serve [(⟨opAdd, ones, ones, 2#64, 0#64⟩, junk), (⟨opCmp, 1#64, 0#64, ones, ones⟩, junk), (⟨7#3, 0#64, 0#64, 0#64, 0#64⟩, junk),
      (⟨opAdd, 5#64, 0#64, 7#64, 0#64⟩, junk), (feedFirst ⟨12#64, 0#64, 0#1⟩ ⟨opAdd, 0#64, 0#64, 1#64, 0#64⟩, junk)] State.reset).1 =
    [some ⟨1#64, 0#64, 0#1⟩, some ⟨0#64, 0#64, 1#1⟩, none, some ⟨12#64, 0#64, 0#1⟩, some ⟨13#64, 0#64, 0#1⟩] := by decide

/-! ### Witnesses: states and operands that meet the hypotheses of the obligations -/

/-- AddDrivesTheWrappedTwoLimbSum, NegDrivesTheComplementPlusOne, NegIsAddOfTheComplementAndTheConstantOne,
CmpDrivesTheStrictLessThanBit: the op codes. -/
theorem witness_core_op_codes :
    (block false ⟨opAdd, ones, 0#64, 1#64, 0#64⟩).inputs.op = 0b000#3 ∧
    (block false ⟨opNeg, 0#64, topBit, ones, ones⟩).inputs.op = 0b001#3 ∧
    (block false ⟨opCmp, 5#64, 0#64, 3#64, 1#64⟩).inputs.op = 0b010#3 := by decide

/-- Mul64DrivesTheThreeStepProduct, Mul64ComputesTheProductModulo2Pow128, MulByOneLimbIsMul64: the extension and the code. -/
theorem witness_mul64_present :
    (block true ⟨opMul64, ones, ones, ones, 0#64⟩).inputs.op = 0b011#3 ∧
    (block true ⟨opMul64, ones, ones, ones, 0#64⟩).config.hasMul = true := by decide

/-- MulDrivesTheTwoPartialProducts, MulComputesTheProductModulo2Pow128, MulIsCommutative, MulAgreesWithRepeatedAdd,
MulObeysTheRingLaws: the extension and the code. -/
theorem witness_mul_present :
    (block true ⟨opMul, 3#64, 0#64, 5#64, 7#64⟩).inputs.op = 0b100#3 ∧
    (block true ⟨opMul, 3#64, 0#64, 5#64, 7#64⟩).config.hasMul = true := by decide

/-- CarryTestIsBit64OfTheExactLowSum: both verdicts, at the boundary sum 2^64. -/
theorem witness_carry_both_ways : carryLow (ones + 1#64) ones = true ∧ carryLow (ones + 0#64) ones = false := by decide

/-- AddIsCommutativeAndAssociativeWithZero: two chained sums, both wrapping. -/
theorem witness_chained_adds : ∃ t u,
    exec (.add ⟨ones, ones⟩ ⟨2#64, 0#64⟩) State.reset = .next t ∧ exec (.add ⟨2#64, 0#64⟩ ⟨ones, topBit⟩) State.reset = .next u :=
  ⟨_, _, rfl, rfl⟩

/-- NegIsAnAdditiveInverseAndAnInvolution, NegFixesExactlyZeroAndBit127: negations and a sum that complete, one of them fixed. -/
theorem witness_negations : ∃ t u v,
    exec (.neg ⟨0#64, topBit⟩) State.reset = .next t ∧ exec (.neg ⟨1#64, 0#64⟩) State.reset = .next u ∧
    exec (.add ⟨0#64, topBit⟩ ⟨1#64, 0#64⟩) State.reset = .next v ∧ resultPair t.outputs = ⟨0#64, 0x8000000000000000#64⟩ :=
  ⟨_, _, _, rfl, rfl, rfl, by decide⟩

/-- CmpIsAStrictTotalOrder: a chain of three values across the limb boundary. -/
theorem witness_cmp_chain :
    (∀ s : State, exec (.cmp ⟨ones, 0#64⟩ ⟨0#64, 1#64⟩) s = .next { s with outputs := ⟨0#64, 0#64, 1#1⟩ }) ∧
    (∀ s : State, exec (.cmp ⟨0#64, 1#64⟩ ⟨1#64, 1#64⟩) s = .next { s with outputs := ⟨0#64, 0#64, 1#1⟩ }) ∧
    (⟨ones, 0#64⟩ : Pair) ≠ ⟨0#64, 1#64⟩ :=
  ⟨fun _ => rfl, fun _ => rfl, by decide⟩

/-- CmpOfTheSumRecoversTheDroppedCarry: the exact sums 2^128 and 2^128 - 1. -/
theorem witness_dropped_carry : ∃ t u,
    exec (.add ⟨ones, ones⟩ ⟨1#64, 0#64⟩) State.reset = .next t ∧ val ⟨ones, ones⟩ + val ⟨1#64, 0#64⟩ ≥ 2 ^ 128 ∧
    exec (.add ⟨ones, ones⟩ ⟨0#64, 0#64⟩) State.reset = .next u ∧ ¬ val ⟨ones, ones⟩ + val ⟨0#64, 0#64⟩ ≥ 2 ^ 128 :=
  ⟨_, _, rfl, by decide, rfl, by decide⟩

/-- TwoLimbFormatIsCanonical: the least and the greatest value, with their pairs. -/
theorem witness_values_at_the_ends :
    (0 < 2 ^ 128 ∧ val ⟨0#64, 0#64⟩ = 0) ∧ (2 ^ 128 - 1 < 2 ^ 128 ∧ val ⟨ones, ones⟩ = 2 ^ 128 - 1) := by decide

/-- LowLimbHoldsTheLowBits: the bit numbers where the two clauses meet and end. -/
theorem witness_bit_numbers : 63 < 64 ∧ (64 ≤ 64 ∧ 64 < 128) ∧ (64 ≤ 127 ∧ 127 < 128) ∧
    (val ⟨topBit, 1#64⟩).testBit 63 = true ∧ (val ⟨topBit, 1#64⟩).testBit 64 = true := by decide

/-- OpPortSelectsTheOperationAndItsOperands: each code on the `op` port, and both verdicts of the codes of extension `M`. -/
theorem witness_every_code :
    (List.range 8).map (fun n => ((⟨BitVec.ofNat 3 n, 1#64, 2#64, 3#64, 4#64⟩ : Request).op.toNat,
      decide (decode .default ⟨BitVec.ofNat 3 n, 1#64, 2#64, 3#64, 4#64⟩ = .reserved (BitVec.ofNat 3 n)),
      decide (decode .withMul ⟨BitVec.ofNat 3 n, 1#64, 2#64, 3#64, 4#64⟩ = .reserved (BitVec.ofNat 3 n)))) =
    [(0, false, false), (1, false, false), (2, false, false), (3, true, false), (4, true, false), (5, true, true), (6, true, true),
     (7, true, true)] := by decide

/-- DecodingUndoesEncoding, EncodingUndoesDecodingOnThePortsRead: well-formed instructions, and requests with junk on ignored ports
that decode. -/
theorem witness_round_trips :
    WellFormed .default (.cmp ⟨5#64, 0#64⟩ ⟨3#64, 1#64⟩) = true ∧ WellFormed .withMul (.mul64 ⟨1#64, 2#64⟩ 3#64) = true ∧
    decode .default ⟨opNeg, 1#64, 2#64, ones, ones⟩ = .operation (.neg ⟨1#64, 2#64⟩) ∧
    decode .withMul ⟨opMul64, 1#64, 2#64, 3#64, ones⟩ = .operation (.mul64 ⟨1#64, 2#64⟩ 3#64) := by decide

/-- IgnoredPortsDoNotChangeTheResponse: the two codes with ignored ports. -/
theorem witness_ignored_ports :
    (⟨opNeg, 1#64, 2#64, ones, ones⟩ : Request).op = 0b001#3 ∧ (⟨opMul64, 1#64, 2#64, 3#64, ones⟩ : Request).op = 0b011#3 := by decide

/-- OutputsOutsideTheResultViewAreZero, InputPortsAreNeverChanged: an operation of each kind that completes from junk outputs. -/
theorem witness_completing_operations : ∃ t u,
    exec (.cmp ⟨1#64, 0#64⟩ ⟨2#64, 0#64⟩) (block false ⟨opCmp, 1#64, 0#64, 2#64, 0#64⟩) = .next t ∧
    exec (.mul ⟨3#64, 0#64⟩ ⟨5#64, 7#64⟩) (block true ⟨opMul, 3#64, 0#64, 5#64, 7#64⟩) = .next u :=
  ⟨_, _, rfl, rfl⟩

/-- StepRunsTheDecodedInstruction: a request that decodes. -/
theorem witness_decodes :
    decode (block true ⟨opMul, 3#64, 0#64, 5#64, 7#64⟩).config (block true ⟨opMul, 3#64, 0#64, 5#64, 7#64⟩).inputs =
      .operation (.mul ⟨3#64, 0#64⟩ ⟨5#64, 7#64⟩) := by decide

/-- ReservedRequestIsRefusedByName, MultipliesAreReservedWithoutTheExtension: each reserved code, and the parameter. -/
theorem witness_reserved_codes :
    (block true ⟨5#3, 0#64, 0#64, 0#64, 0#64⟩).inputs.op = 0b101#3 ∧ (block true ⟨6#3, 0#64, 0#64, 0#64, 0#64⟩).inputs.op = 0b110#3 ∧
    (block true ⟨7#3, ones, ones, ones, ones⟩).inputs.op = 0b111#3 ∧
    (block false ⟨3#3, ones, ones, ones, ones⟩).config.hasMul = false ∧
    (block false ⟨3#3, ones, ones, ones, ones⟩).inputs.op = 0b011#3 ∧ (block false ⟨4#3, 0#64, 0#64, 0#64, 0#64⟩).inputs.op = 0b100#3 := by
  decide

/-- NoCauseExistsAndDefinedRequestsComplete: the greatest defined code with and without the extension. -/
theorem witness_defined_codes : DefinedOp .default 2#3 = true ∧ DefinedOp .withMul 4#3 = true ∧ DefinedOp .default 3#3 = false := by decide

/-- InputPortsAreNeverChanged, StepDependsOnTheRequestAlone: two states that differ in their outputs only, and a step. -/
theorem witness_same_request : ∃ t,
    (block false ⟨opNeg, 1#64, 0#64, 0#64, 0#64⟩).config = ({ block false ⟨opNeg, 1#64, 0#64, 0#64, 0#64⟩ with outputs := ⟨0#64, 0#64, 0#1⟩ } : State).config ∧
    (block false ⟨opNeg, 1#64, 0#64, 0#64, 0#64⟩).inputs = ({ block false ⟨opNeg, 1#64, 0#64, 0#64, 0#64⟩ with outputs := ⟨0#64, 0#64, 0#1⟩ } : State).inputs ∧
    step (block false ⟨opNeg, 1#64, 0#64, 0#64, 0#64⟩) = .next t :=
  ⟨_, rfl, rfl, rfl⟩

/-- EveryStepSettlesTheOutputs, SettledStatesAreExactlyTheFixedPoints: a settled state that steps, and an unsettled one that steps. -/
theorem witness_settled_and_unsettled : ∃ t u,
    Settled { block false ⟨opNeg, 1#64, 0#64, 0#64, 0#64⟩ with outputs := ⟨ones, ones, 0#1⟩ } ∧
    step { block false ⟨opNeg, 1#64, 0#64, 0#64, 0#64⟩ with outputs := ⟨ones, ones, 0#1⟩ } = .next t ∧
    ¬ Settled (block false ⟨opNeg, 1#64, 0#64, 0#64, 0#64⟩) ∧ step (block false ⟨opNeg, 1#64, 0#64, 0#64, 0#64⟩) = .next u :=
  ⟨_, _, by decide, rfl, by decide, rfl⟩

/-- FirstRequestAfterPowerOnIsServed: a request with a defined response, on the block with the extension. -/
theorem witness_first_request : evalContract .withMul ⟨opMul, 3#64, 0#64, 5#64, 7#64⟩ = some ⟨15#64, 21#64, 0#1⟩ := by decide

/-- ReservedRequestDoesNoLastingHarm: 95_test_vectors 2.7, code 3 and its accepted neighbour 2. -/
theorem witness_reserved_then_defined :
    DefinedOp State.reset.config (⟨3#3, 0#64, 0#64, 0#64, 0#64⟩ : Request).op = false ∧
    DefinedOp State.reset.config (⟨2#3, 0#64, 0#64, 0#64, 0#64⟩ : Request).op = true := by decide

/-- EvaluationsAreIndependent: two blocks of one configuration and jobs for both, one of them reserved. -/
theorem witness_jobs_for_two_blocks :
    (∀ s ∈ [State.reset, block false ⟨7#3, 0#64, 0#64, 0#64, 0#64⟩], s.config = .default) ∧
    ∀ j ∈ [(⟨1, ⟨opAdd, 1#64, 0#64, 2#64, 0#64⟩, junk⟩ : Job), ⟨0, ⟨5#3, 0#64, 0#64, 0#64, 0#64⟩, junk⟩],
      j.block < [State.reset, block false ⟨7#3, 0#64, 0#64, 0#64, 0#64⟩].length := by decide

/-- BlocksShareNothing: another block than the served one, and the served block. -/
theorem witness_two_blocks : (0 : Nat) ≠ 1 ∧
    [State.reset, block true ⟨opMul, 3#64, 0#64, 5#64, 7#64⟩][1]? = some (block true ⟨opMul, 3#64, 0#64, 5#64, 7#64⟩) := by decide

end Sys2Proof.Tests
end

section
/-!
SUPPORT. The proofs of the family 10_state: the two-limb data format (R22) and the input ports (R31).
-/

namespace Sys2Proof.Machine

/-! ### The data format -/

theorem val_lt (p : Pair) : val p < 2 ^ 128 := by
  have hlo := p.lo.isLt
  have hhi := p.hi.isLt
  unfold val
  omega

/-- The low limb is the remainder of the value by 2^64. -/
theorem val_mod (p : Pair) : val p % 2 ^ 64 = p.lo.toNat := by
  have hlo := p.lo.isLt
  unfold val
  omega

/-- The high limb is the quotient of the value by 2^64. -/
theorem val_div (p : Pair) : val p / 2 ^ 64 = p.hi.toNat := by
  have hlo := p.lo.isLt
  unfold val
  omega

/-- `pairOf` takes from a value the remainder and the quotient by 2^64, which are the limbs it was made of. -/
@[simp] theorem pairOf_val (p : Pair) : pairOf (val p) = p := by
  apply pair_ext_toNat
  · rw [pairOf_lo_toNat, val_mod]
  · rw [pairOf_hi_toNat, val_div, Nat.mod_eq_of_lt p.hi.isLt]

/-- The pair of any number, in range or not, keeps it modulo 2^128 (R7). -/
theorem val_pairOf (n : Nat) : val (pairOf n) = n % 2 ^ 128 := by
  rw [val, pairOf_lo_toNat, pairOf_hi_toNat]
  omega

theorem val_injective : Function.Injective val :=
  Function.LeftInverse.injective pairOf_val

/-! ### What a step keeps -/

/-- An instruction that answers drives the outputs and nothing else. -/
theorem exec_keeps_ports {i : Instr} {s t : State} (h : exec i s = .next t) :
    t.inputs = s.inputs ∧ t.config = s.config := by
  obtain ⟨-, rfl⟩ := exec_next h
  exact ⟨rfl, rfl⟩

theorem step_keeps_ports {s t : State} (h : step s = .next t) : t.inputs = s.inputs ∧ t.config = s.config := by
  obtain ⟨_, -, hexec⟩ := step_next h
  exact exec_keeps_ports hexec

/-- An instruction reads the parameter to know whether the block has it, and never the outputs it is about to drive. -/
theorem exec_eq_of_ports {s s' : State} (hc : s.config = s'.config) (hi : s.inputs = s'.inputs) (i : Instr) :
    exec i s = exec i s' := by
  rw [exec_eq_if_wellFormed, exec_eq_if_wellFormed, driven_eq_of_ports hc hi, hc]

/-- The snapshot on the input ports and the parameter fix the whole step (R31): they select the instruction, and its answer. -/
theorem step_eq_of_ports {s s' : State} (hc : s.config = s'.config) (hi : s.inputs = s'.inputs) : step s = step s' := by
  cases h : decode s.config s.inputs with
  | operation i => rw [step_operation h, step_operation (hc ▸ hi ▸ h), exec_eq_of_ports hc hi]
  | reserved code => rw [step_reserved h, step_reserved (hc ▸ hi ▸ h)]

end Sys2Proof.Machine

namespace Sys2Proof

open Machine

/-- Settles O25: `pairOf` inverts `val` on pairs, `val` inverts `pairOf` below 2^128, and both uniqueness clauses are the
injectivity of `val`. -/
theorem twoLimbFormatIsCanonical : Obligations.TwoLimbFormatIsCanonical := by
  refine ⟨fun p => ⟨val_lt p, pairOf_val p⟩, fun n hn => ⟨?_, ?_⟩, fun p q => ⟨fun h => ?_, fun ⟨hlo, hhi⟩ => ?_⟩⟩
  · rw [val_pairOf, Nat.mod_eq_of_lt hn]
  · rintro q rfl
    exact (pairOf_val q).symm
  · cases val_injective h
    exact ⟨rfl, rfl⟩
  · rw [pair_ext hlo hhi]

/-- Settles O41: an answering instruction drives the outputs only, and the parameter and the snapshot fix the step. -/
theorem inputPortsAreNeverChanged : Obligations.InputPortsAreNeverChanged := by
  refine ⟨fun _ _ _ => exec_keeps_ports, fun s t h => ?_⟩
  obtain ⟨hinputs, hconfig⟩ := step_keeps_ports h
  refine ⟨hinputs, hconfig, fun s' hc hi => ?_⟩
  rw [step_eq_of_ports hc hi, h]

end Sys2Proof
end

section
/-!
SUPPORT. The proofs of the family 20_memory: where the bits of a value stand (R41), and that evaluations are independent (R46).

For R46 each operation's limbs are summed up in a value (R72, R81, R91, R104, R106), so that one step is the value-level `eval`;
the lists of requests then follow by induction.
-/

namespace Sys2Proof.Machine

/-! ### The bits of a value -/

/-- Either limb of a value, bit by bit. -/
theorem val_testBit (p : Pair) (i : Nat) :
    (val p).testBit i = if i < 64 then p.lo.getLsbD i else p.hi.getLsbD (i - 64) := by
  rw [val, Nat.mul_comm, Nat.testBit_two_pow_mul_add _ p.lo.isLt]
  rfl

theorem joined_toNat (p : Pair) : (joined p).toNat = val p := by
  rw [joined, BitVec.toNat_append, ← Nat.shiftLeft_add_eq_or_of_lt p.lo.isLt, Nat.shiftLeft_eq, val]

/-! ### The shared operations by value -/

/-- A pair is the pair of any number that is its value. -/
theorem eq_pairOf_of_val {p : Pair} {n : Nat} (h : val p = n) : p = pairOf n := by
  rw [← h, pairOf_val]

/-- The carry test on the wrapped sum gives bit 64 of the exact one (R71). -/
theorem carryLow_add64_toNat (x y : Limb) : (carryLow (add64 x y) x).toNat = (x.toNat + y.toNat) / 2 ^ 64 := by
  have hx := x.isLt
  have hy := y.isLt
  rw [carryLow_eq_decide, add64_toNat]
  by_cases h : (x.toNat + y.toNat) % 2 ^ 64 < x.toNat
  · rw [decide_eq_true h, Bool.toNat_true]
    omega
  · rw [decide_eq_false h, Bool.toNat_false]
    omega

/-- R72: the carry that the low limbs' sum loses is what the high limb gains. -/
theorem val_addPair (x y : Pair) : val (addPair x y) = (val x + val y) % 2 ^ 128 := by
  rw [val, addPair_lo_toNat, addPair_hi_toNat, carryLow_add64_toNat, val, val]
  omega

theorem val_complementPair (x : Pair) : val (complementPair x) = 2 ^ 128 - 1 - val x := by
  have hlo := x.lo.isLt
  have hhi := x.hi.isLt
  simp only [complementPair, val, BitVec.toNat_not]
  omega

theorem val_onePair : val onePair = 1 := rfl

/-- R81: the complement and one. -/
theorem val_negPair (x : Pair) : val (negPair x) = (2 ^ 128 - val x) % 2 ^ 128 := by
  have hx := val_lt x
  rw [negPair, val_addPair, val_complementPair, val_onePair]
  omega

/-- R91: the high limbs decide the order of the values, and the low limbs where the high ones are equal. -/
theorem lessThan_eq_decide_val (x y : Pair) : lessThan x y = decide (val x < val y) := by
  have hx := x.lo.isLt
  have hy := y.lo.isLt
  rw [Bool.eq_iff_iff, lessThan_eq_true_iff, decide_eq_true_eq, val, val]
  omega

/-- R104: of the partial products `lo * v` and `hi * v * 2^64`, what is dropped lies from bit 128 on. -/
theorem val_mul64Pair (x : Pair) (v : Limb) : val (mul64Pair x v) = val x * v.toNat % 2 ^ 128 := by
  have hproduct : val x * v.toNat = x.hi.toNat * v.toNat * 2 ^ 64 + x.lo.toNat * v.toNat := by
    rw [val]
    ring
  rw [hproduct, val, mul64Pair_lo_toNat, mul64Pair_hi_toNat]
  omega

/-- `MUL` is one `MUL64` of the low limb, and a second one of the high limb whose low result is added a limb higher (R105). -/
theorem val_mulPair_eq_mul64 (x y : Pair) :
    val (mulPair x y) = (val (mul64Pair y x.lo) + val (mul64Pair y x.hi) * 2 ^ 64) % 2 ^ 128 := by
  have hlo := (mul64Pair y x.lo).lo.isLt
  rw [val, mulPair_lo, mulPair_hi_toNat, val, val]
  omega

/-- R106. -/
theorem val_mulPair (x y : Pair) : val (mulPair x y) = val x * val y % 2 ^ 128 := by
  have hproduct : val x * val y = val y * x.lo.toNat + val y * x.hi.toNat * 2 ^ 64 := by
    rw [val]
    ring
  rw [val_mulPair_eq_mul64, val_mul64Pair, val_mul64Pair, hproduct]
  omega

/-! ### One step by value -/

/-- What an instruction's limb-level meaning drives is what its value-level rule says. -/
theorem drivenBy_eq_contract (i : Instr) : drivenBy i = contract i := by
  cases i with
  | add x y => exact congrArg pairResponse (eq_pairOf_of_val (val_addPair x y))
  | neg x => exact congrArg pairResponse (eq_pairOf_of_val (val_negPair x))
  | cmp x y => exact congrArg boolResponse (lessThan_eq_decide_val x y)
  | mul64 x v => exact congrArg pairResponse (eq_pairOf_of_val (val_mul64Pair x v))
  | mul x y => exact congrArg pairResponse (eq_pairOf_of_val (val_mulPair x y))

/-- The decoder reads only operations that the block has. -/
theorem decode_wellFormed {cfg : Config} {r : Request} {i : Instr} (h : decode cfg r = .operation i) :
    WellFormed cfg i = true := by
  obtain ⟨-, e⟩ | ⟨-, e⟩ | ⟨-, e⟩ | ⟨-, hm, e⟩ | ⟨-, hm, e⟩ | ⟨e, -⟩ := decode_cases cfg r <;> rw [e] at h <;> cases h
  exacts [rfl, rfl, rfl, hm, hm]

theorem evalContract_operation {cfg : Config} {r : Request} {i : Instr} (h : decode cfg r = .operation i) :
    evalContract cfg r = some (contract i) := by
  simp only [evalContract, h]

theorem evalContract_reserved {cfg : Config} {r : Request} {code : OpCode} (h : decode cfg r = .reserved code) :
    evalContract cfg r = none := by
  simp only [evalContract, h]

/-- A decoded request is answered with its instruction's value-level response. -/
theorem step_eq_contract {s : State} {i : Instr} (h : decode s.config s.inputs = .operation i) :
    step s = .next { s with outputs := contract i } := by
  rw [step_operation h, exec_eq_if_wellFormed, if_pos (decode_wellFormed h), drivenBy_eq_contract]

/-- A served request is answered with its `eval`, whatever the block did before. -/
theorem evaluate_answer (r : Request) (u : Response) (s : State) : (evaluate r u s).1 = evalContract s.config r := by
  cases h : decode s.config r with
  | operation i =>
    have hstep : step (present r u s) = .next { present r u s with outputs := contract i } := step_eq_contract h
    rw [evaluate_of_next hstep, evalContract_operation h]
  | reserved code =>
    have hstep : step (present r u s) = .refused (.reservedOp code) := step_reserved h
    rw [evaluate_of_refused hstep, evalContract_reserved h]

/-! ### Lists of requests, on one block -/

theorem serve_cons (r : Request) (u : Response) (rest : List (Request × Response)) (s : State) :
    serve ((r, u) :: rest) s =
      ((evaluate r u s).1 :: (serve rest (evaluate r u s).2).1, (serve rest (evaluate r u s).2).2) := rfl

theorem serve_answers (requests : List (Request × Response)) (s : State) :
    (serve requests s).1 = requests.map fun p => evalContract s.config p.1 := by
  induction requests generalizing s with
  | nil => rfl
  | cons p rest ih => rw [serve_cons, ih, evaluate_answer, evaluate_config, List.map_cons]

/-! ### Schedules, on several blocks -/

/-- Everything a bank does with a request to one of its blocks: that block serves it, and takes its own place again. -/
theorem evaluateAt_eq_set {n : Nat} {bank : Bank} {s : State} (h : bank[n]? = some s) (r : Request) (u : Response) :
    evaluateAt n r u bank = ((evaluate r u s).1, bank.set n (evaluate r u s).2) := by
  induction bank generalizing n with
  | nil => cases h
  | cons b bank ih =>
    cases n with
    | zero => cases h; rfl
    | succ n => simp only [evaluateAt, ih (n := n) h, List.set_cons_succ]

theorem serveBank_cons (job : Job) (rest : List Job) (bank : Bank) :
    (serveBank (job :: rest) bank).1 =
      (evaluateAt job.block job.request job.unsettled bank).1 ::
        (serveBank rest (evaluateAt job.block job.request job.unsettled bank).2).1 := rfl

/-- Serving a job keeps the two hypotheses the rest of the schedule needs: the blocks stay of one configuration, and none goes. -/
theorem serveBank_answers {cfg : Config} (jobs : List Job) (bank : Bank) (hcfg : ∀ s ∈ bank, s.config = cfg)
    (hblock : ∀ j ∈ jobs, j.block < bank.length) :
    (serveBank jobs bank).1 = jobs.map fun j => evalContract cfg j.request := by
  induction jobs generalizing bank with
  | nil => rfl
  | cons job rest ih =>
    obtain ⟨hjob, hrest⟩ := List.forall_mem_cons.mp hblock
    have hserved : bank[job.block].config = cfg := hcfg _ (List.getElem_mem hjob)
    rw [serveBank_cons, evaluateAt_eq_set (List.getElem?_eq_getElem hjob), evaluate_answer, hserved, List.map_cons]
    congr 1
    apply ih
    · intro t ht
      obtain hkept | rfl := List.mem_or_eq_of_mem_set ht
      · exact hcfg t hkept
      · rw [evaluate_config, hserved]
    · simpa only [List.length_set] using hrest

end Sys2Proof.Machine

namespace Sys2Proof

open Machine

/-- Settles O26: the two ranges are the two branches of `val_testBit`. -/
theorem lowLimbHoldsTheLowBits : Obligations.LowLimbHoldsTheLowBits := by
  refine fun p => ⟨fun i hi => ?_, fun i hi _ => ?_, joined_toNat p⟩
  · rw [val_testBit, if_pos hi]
  · rw [val_testBit, if_neg (Nat.not_lt.mpr hi)]

/-- Settles O49, by induction on the list and on the schedule: each evaluation answers `eval` and keeps every parameter. -/
theorem evaluationsAreIndependent : Obligations.EvaluationsAreIndependent :=
  ⟨serve_answers, fun _ => serveBank_answers⟩

end Sys2Proof
end

section
/-!
SUPPORT. The proofs of the family 30_encoding: what the code on `op` selects (R52, R53), the negator's built-in constant (R54) and the
ports an operation ignores (R55).
-/

namespace Sys2Proof

open Machine

variable {cfg : Config} {r r' : Request}

/-! ### The decoder on the reserved codes -/

/-- A code that no operation of the block has is reserved: each operation the decoder reads has a defined code. -/
theorem decode_of_not_definedOp (h : DefinedOp cfg r.op = false) : decode cfg r = .reserved r.op := by
  obtain ⟨hop, -⟩ | ⟨hop, -⟩ | ⟨hop, -⟩ | ⟨hop, hm, -⟩ | ⟨hop, hm, -⟩ | ⟨hreserved, -⟩ := decode_cases cfg r
  case inr.inr.inr.inr.inr => exact hreserved
  all_goals simp [DefinedOp, *] at h

/-- The codes above that of `MUL` are reserved on every block. -/
theorem definedOp_of_opMul_lt (cfg : Config) {op : OpCode} (h : opMul < op) : DefinedOp cfg op = false := by
  have hcode : ∀ hasMul : Bool, ∀ op : OpCode, opMul < op → DefinedOp ⟨hasMul⟩ op = false := by decide
  exact hcode cfg.hasMul op h

/-- The code of `MUL64` on either kind of block. -/
theorem decode_opMul64 (h : r.op = opMul64) : decode cfg r =
    if cfg.hasMul then .operation (.mul64 (firstOperand r) (multiplierOperand r)) else .reserved opMul64 := by
  split
  · exact decode_mul64 h ‹_›
  · rw [decode_of_not_definedOp, h]
    simp [DefinedOp, *, opMul64, opAdd, opNeg, opCmp]

/-- The code of `MUL` on either kind of block. -/
theorem decode_opMul (h : r.op = opMul) : decode cfg r =
    if cfg.hasMul then .operation (.mul (firstOperand r) (secondOperand r)) else .reserved opMul := by
  split
  · exact decode_mul h ‹_›
  · rw [decode_of_not_definedOp, h]
    simp [DefinedOp, *, opMul, opAdd, opNeg, opCmp]

/-- The code on a packed request is what stands from bit 256 on; the word has no bit above it. -/
theorem unpackRequest_op_toNat (w : RequestWord) : (unpackRequest w).op.toNat = w.toNat / 2 ^ 256 := by
  have hcode : w.toNat >>> 256 < 2 ^ 3 := BitVec.toNat_ushiftRight_lt w 256 (by decide)
  rw [unpackRequest, BitVec.extractLsb'_toNat, Nat.mod_eq_of_lt hcode, Nat.shiftRight_eq_div_pow]

/-! ### Requests that decode alike -/

/-- Of a `NEG` request the decoder reads the first operand only. -/
theorem decode_eq_of_opNeg (h : r.op = opNeg) (h' : r'.op = opNeg) (hfirst : firstOperand r = firstOperand r') :
    decode cfg r = decode cfg r' := by
  rw [decode_neg h, decode_neg h', hfirst]

/-- Of a `MUL64` request it reads the first operand and the multiplier only, on either kind of block. -/
theorem decode_eq_of_opMul64 (h : r.op = opMul64) (h' : r'.op = opMul64) (hfirst : firstOperand r = firstOperand r')
    (hmultiplier : multiplierOperand r = multiplierOperand r') : decode cfg r = decode cfg r' := by
  rw [decode_opMul64 h, decode_opMul64 h', hfirst, hmultiplier]

/-- The response depends on a request only through what the decoder reads from it. -/
theorem evaluate_answer_of_decode_eq {s : State} (h : decode s.config r = decode s.config r')
    (u : Response) : (evaluate r u s).1 = (evaluate r' u s).1 := by
  rw [evaluate_answer, evaluate_answer, evalContract, evalContract, h]

/-! ### The negator -/

/-- `NEG` is an evaluation of the adder whose second operand is the constant one (R54). -/
theorem exec_neg_eq_add (x : Pair) (s : State) : exec (.neg x) s = exec (.add (complementPair x) onePair) s := rfl

end Sys2Proof

namespace Sys2Proof

open Machine

/-- Settles O16: the negator is the adder on the complement and `onePair`, and the decoder gives it the first operand only. -/
theorem negIsAddOfTheComplementAndTheConstantOne : Obligations.NegIsAddOfTheComplementAndTheConstantOne := by
  refine ⟨exec_neg_eq_add, fun s hop => ?_⟩
  rw [step_operation (decode_neg hop), exec_neg_eq_add]
  rfl

/-- Settles O27: one lemma about the decoder per code. -/
theorem opPortSelectsTheOperationAndItsOperands : Obligations.OpPortSelectsTheOperationAndItsOperands := by
  refine ⟨fun cfg r => ⟨decode_add, decode_neg, decode_cmp, decode_opMul64, decode_opMul, fun hop => ?_⟩,
    fun cfg w => ⟨rfl, unpackRequest_op_toNat w⟩⟩
  have habove : opMul < r.op := by obtain h | h | h := hop <;> rw [h] <;> decide
  exact decode_of_not_definedOp (definedOp_of_opMul_lt cfg habove)

/-- Settles O33: requests that differ on ignored ports decode alike, and the encoder writes zero there. -/
theorem ignoredPortsDoNotChangeTheResponse : Obligations.IgnoredPortsDoNotChangeTheResponse := by
  refine ⟨fun r x y u s hop => ?_, fun r y u s hop => ?_, fun _ => ⟨rfl, rfl⟩, fun _ _ => rfl⟩
  · apply evaluate_answer_of_decode_eq
    apply decode_eq_of_opNeg
    exacts [hop, hop, rfl]
  · apply evaluate_answer_of_decode_eq
    apply decode_eq_of_opMul64
    exacts [hop, hop, rfl, rfl]

end Sys2Proof
end

section
/-!
SUPPORT. The proofs of the family 41_add: the two-limb sum (R70), the carry test (R71) and the sum by value (R72).
-/

namespace Sys2Proof.Machine

/-! ### The carry out of the low limb -/

/-- The detected carry restores what the wrapped sum lost. -/
theorem carryLow_mul_add_add64 (x y : Limb) :
    (carryLow (add64 x y) x).toNat * 2 ^ 64 + (add64 x y).toNat = x.toNat + y.toNat := by
  rw [carryLow_add64_toNat, add64_toNat, Nat.div_add_mod']

/-- Joined above the wrapped sum, the carry is bit 64 of a 65-bit word. -/
theorem ofBool_append_toNat (c : Bool) (w : Limb) : (BitVec.ofBool c ++ w).toNat = c.toNat * 2 ^ 64 + w.toNat := by
  rw [BitVec.toNat_append, ← Nat.shiftLeft_add_eq_or_of_lt w.isLt, Nat.shiftLeft_eq, BitVec.toNat_ofBool]

/-- The wrapped sum is below its first addend exactly when the exact sum leaves 64 bits. -/
theorem carryLow_add64_eq_decide (x y : Limb) :
    carryLow (add64 x y) x = decide (2 ^ 64 ≤ x.toNat + y.toNat) := by
  have hexact := carryLow_mul_add_add64 x y
  have hlo := (add64 x y).isLt
  cases hcarry : carryLow (add64 x y) x <;> rw [hcarry] at hexact
  case true =>
    rw [Bool.toNat_true] at hexact
    exact (decide_eq_true (by omega)).symm
  case false =>
    rw [Bool.toNat_false] at hexact
    exact (decide_eq_false (by omega)).symm

theorem add64_comm (x y : Limb) : add64 x y = add64 y x := BitVec.add_comm x y

/-- Either addend may be tested: the exact sum does not depend on their order. -/
theorem carryLow_add64_right (x y : Limb) : carryLow (add64 x y) y = carryLow (add64 x y) x := by
  rw [carryLow_add64_eq_decide, add64_comm, carryLow_add64_eq_decide, Nat.add_comm]

/-! ### The instruction -/

theorem exec_add (x y : Pair) (s : State) :
    exec (.add x y) s = .next { s with outputs := pairResponse (addPair x y) } := rfl

/-- An instruction of the block answers with its value-level response. -/
theorem exec_eq_contract {i : Instr} {s : State} (h : WellFormed s.config i = true) :
    exec i s = .next { s with outputs := contract i } := by
  rw [exec_eq_if_wellFormed, if_pos h, drivenBy_eq_contract]

end Sys2Proof.Machine

namespace Sys2Proof

open Machine

/-- Settles O6: `ADD` is on every block, and its value-level response is the pair of a number below 2^128. -/
theorem addComputesTheSumModulo2Pow128 : Obligations.AddComputesTheSumModulo2Pow128 := by
  refine fun x y s => ⟨_, exec_eq_contract rfl, rfl, ?_⟩
  rw [contract, resultPair_pairResponse, val_pairOf, Nat.mod_mod]

/-- Settles O1: the adder's steps are R70's, with the carry test as the order of numbers, and the code 000 decodes to `ADD` of the
four limbs. -/
theorem addDrivesTheWrappedTwoLimbSum : Obligations.AddDrivesTheWrappedTwoLimbSum := by
  refine ⟨fun x y s => ?_, fun s hop => step_operation (decode_add hop)⟩
  rw [exec_add, addPair, carryLow_eq_decide]
  rfl

/-- Settles O11: every clause reads off the exact sum, by whether the carry is set. -/
theorem carryTestIsBit64OfTheExactLowSum : Obligations.CarryTestIsBit64OfTheExactLowSum := by
  intro lo1 lo2
  have hcarry : carryLow (lo1 + lo2) lo1 = decide (2 ^ 64 ≤ lo1.toNat + lo2.toNat) := carryLow_add64_eq_decide lo1 lo2
  have hexact : (carryLow (lo1 + lo2) lo1).toNat * 2 ^ 64 + (lo1 + lo2).toNat = lo1.toNat + lo2.toNat :=
    carryLow_mul_add_add64 lo1 lo2
  refine ⟨?_, ?_, fun h => ?_, fun h => ?_, ?_, carryLow_add64_right lo1 lo2⟩
  · rw [hcarry, decide_eq_true_iff]
  · rw [hcarry, decide_eq_false_iff_not, Nat.not_le]
  · rw [h, Bool.toNat_true] at hexact
    omega
  · rw [h, Bool.toNat_false] at hexact
    omega
  · rw [ofBool_append_toNat, hexact]

end Sys2Proof
end

section
/-!
SUPPORT. The proofs of the family 42_negate: the negator's steps (R80) and the additive inverse (R81).
-/

namespace Sys2Proof.Machine

/-! ### The complement to 2^128 of a value below it -/

/-- The reduction modulo 2^128 only bears on the complement of 0 (R81). -/
theorem two_pow_sub_val_mod (x : Pair) :
    (2 ^ 128 - val x) % 2 ^ 128 = if val x = 0 then 0 else 2 ^ 128 - val x := by
  split
  case isTrue hzero => rw [hzero, Nat.sub_zero, Nat.mod_self]
  case isFalse hpos => exact Nat.mod_eq_of_lt (by omega)

/-- A value and its complement add up to 2^128 itself. -/
theorem val_add_two_pow_sub_val_mod (x : Pair) : (val x + (2 ^ 128 - val x) % 2 ^ 128) % 2 ^ 128 = 0 := by
  rw [Nat.add_mod_mod, Nat.add_sub_cancel' (val_lt x).le, Nat.mod_self]

/-! ### The instruction -/

theorem val_contract_neg (x : Pair) :
    val (resultPair (contract (.neg x))) = (2 ^ 128 - val x) % 2 ^ 128 := by
  rw [contract, resultPair_pairResponse, val_pairOf, Nat.mod_mod]

end Sys2Proof.Machine

namespace Sys2Proof

open Machine

/-- Settles O7: `NEG` is on every block, and its value-level response is the pair of the value's complement to 2^128, reduced. -/
theorem negComputesTheAdditiveInverse : Obligations.NegComputesTheAdditiveInverse := by
  refine fun x s => ⟨_, exec_eq_contract rfl, rfl, ?_, ?_⟩
  · rw [val_contract_neg, two_pow_sub_val_mod]
  · rw [val_contract_neg, val_add_two_pow_sub_val_mod]

/-- Settles O2: R80's steps are the adder's steps (O1) on the complement and the constant one, and the code 001 decodes to `NEG` of
`a_lo`, `a_hi`. -/
theorem negDrivesTheComplementPlusOne : Obligations.NegDrivesTheComplementPlusOne := by
  obtain ⟨haddSteps, -⟩ := addDrivesTheWrappedTwoLimbSum
  refine ⟨fun x s => ?_, fun s hop => step_operation (decode_neg hop)⟩
  rw [exec_neg_eq_add]
  exact haddSteps (complementPair x) onePair s

end Sys2Proof
end

section
/-!
SUPPORT. The proofs of the family 43_compare: the comparator's two forms (R90) and the order of the values (R91).
-/

namespace Sys2Proof.Machine

/-! ### The Boolean on `r_lt` -/

/-- R95: the Boolean true of the source is the bit value 1. -/
theorem ofBool_eq_one_iff {b : Bool} : BitVec.ofBool b = 1#1 ↔ b = true :=
  BitVec.ofBool_eq_iff_eq (b' := true)

/-- R95: the Boolean false of the source is the bit value 0. -/
theorem ofBool_eq_zero_iff {b : Bool} : BitVec.ofBool b = 0#1 ↔ b = false :=
  BitVec.ofBool_eq_iff_eq (b' := false)

theorem ofBool_decide (P : Prop) [Decidable P] : BitVec.ofBool (decide P) = if P then 1#1 else 0#1 := by
  split
  case isTrue h => exact ofBool_eq_one_iff.mpr (decide_eq_true h)
  case isFalse h => exact ofBool_eq_zero_iff.mpr (decide_eq_false h)

/-! ### The comparator's two forms -/

/-- R90: the pseudocode's three ways; the third is reached only when the high limbs are equal. -/
theorem ofBool_lessThan_eq_threeWay (x y : Pair) :
    BitVec.ofBool (lessThan x y) =
      if x.hi.toNat > y.hi.toNat then 0#1
      else if x.hi.toNat < y.hi.toNat then 1#1
      else if x.lo.toNat < y.lo.toNat then 1#1 else 0#1 := by
  simp only [lessThan, BitVec.ult_eq_decide, decide_eq_true_iff, gt_iff_lt]
  split
  case isTrue => rfl
  case isFalse =>
    split
    case isTrue => rfl
    case isFalse => exact ofBool_decide _

/-- R90: the form as one expression. -/
theorem lessThan_eq_decide_lex (x y : Pair) :
    lessThan x y = decide (x.hi.toNat < y.hi.toNat ∨ (x.hi = y.hi ∧ x.lo.toNat < y.lo.toNat)) := by
  rw [Bool.eq_iff_iff, lessThan_eq_true_iff, decide_eq_true_iff, BitVec.toNat_inj]

/-! ### The instruction -/

theorem exec_cmp (x y : Pair) (s : State) :
    exec (.cmp x y) s =
      .next { s with outputs := { rLo := 0#64, rHi := 0#64, rLt := BitVec.ofBool (lessThan x y) } } := rfl

end Sys2Proof.Machine

namespace Sys2Proof

open Machine

/-- Settles O8: the comparator is the order of the values, and `r_lt` is its Boolean as a bit. -/
theorem cmpDecidesTheOrderOfTheValues : Obligations.CmpDecidesTheOrderOfTheValues := by
  refine fun x y s => ⟨_, exec_cmp x y s, rfl, ?_, ?_⟩
  · rw [ofBool_eq_one_iff, lessThan_eq_decide_val, decide_eq_true_iff]
  · rw [ofBool_eq_zero_iff, lessThan_eq_decide_val, decide_eq_false_iff_not, Nat.not_lt]

/-- Settles O3: each form of R90 is a form of the comparator, and the code 010 decodes to `CMP` of the four limbs. -/
theorem cmpDrivesTheStrictLessThanBit : Obligations.CmpDrivesTheStrictLessThanBit := by
  refine ⟨fun x y s => ?_, fun x y s => ?_, fun s hop => step_operation (decode_cmp hop)⟩
  · rw [exec_cmp, ofBool_lessThan_eq_threeWay]
  · rw [exec_cmp, lessThan_eq_decide_lex, ofBool_decide]

end Sys2Proof
end

section
/-!
SUPPORT. The proofs of the family 44_multiply_optional: presence (R100), the widening multiply (R101), and the two products by their
steps (R103, R105) and by value (R104, R106).
-/

namespace Sys2Proof.Machine

/-! ### Presence -/

theorem exec_mul64 {s : State} (hm : s.config.hasMul = true) (x : Pair) (v : Limb) :
    exec (.mul64 x v) s = .next { s with outputs := pairResponse (mul64Pair x v) } :=
  respondWithMul_present hm opMul64 _

theorem exec_mul {s : State} (hm : s.config.hasMul = true) (x y : Pair) :
    exec (.mul x y) s = .next { s with outputs := pairResponse (mulPair x y) } :=
  respondWithMul_present hm opMul _

theorem exec_mul64_absent {s : State} (hm : s.config.hasMul = false) (x : Pair) (v : Limb) :
    exec (.mul64 x v) s = .refused (.reservedOp opMul64) :=
  respondWithMul_absent hm opMul64 _

theorem exec_mul_absent {s : State} (hm : s.config.hasMul = false) (x y : Pair) :
    exec (.mul x y) s = .refused (.reservedOp opMul) :=
  respondWithMul_absent hm opMul _

/-- On a block without extension `M` the codes above that of `CMP` are reserved (R100). -/
theorem definedOp_of_opCmp_lt {cfg : Config} (hm : cfg.hasMul = false) {op : OpCode} (h : opCmp < op) :
    DefinedOp cfg op = false := by
  have hcode : ∀ op : OpCode, opCmp < op → DefinedOp ⟨false⟩ op = false := by decide
  obtain ⟨hasMul⟩ := cfg
  cases hm
  exact hcode op h

/-! ### The widening multiply -/

/-- The product of two limbs fits in 128 bits, so its quotient by 2^64 is one limb. -/
theorem limb_mul_div_lt (x y : Limb) : x.toNat * y.toNat / 2 ^ 64 < 2 ^ 64 :=
  Nat.div_lt_of_lt_mul (Nat.mul_lt_mul'' x.isLt y.isLt)

/-- Nothing of the product's high part is lost (R101). -/
theorem mulw_highWord_toNat_exact (x y : Limb) : (mulw x y).highWord.toNat = x.toNat * y.toNat / 2 ^ 64 := by
  rw [mulw_highWord_toNat, Nat.mod_eq_of_lt (limb_mul_div_lt x y)]

end Sys2Proof.Machine

namespace Sys2Proof

open Machine

/-- Settles O9: a block with `HAS_MUL` drives `mul64Pair`, whose value is the product. -/
theorem mul64ComputesTheProductModulo2Pow128 : Obligations.Mul64ComputesTheProductModulo2Pow128 :=
  fun x v _ hm => ⟨_, exec_mul64 hm x v, rfl, val_mul64Pair x v⟩

/-- Settles O10: a block with `HAS_MUL` drives `mulPair`, whose value is the product. -/
theorem mulComputesTheProductModulo2Pow128 : Obligations.MulComputesTheProductModulo2Pow128 :=
  fun x y _ hm => ⟨_, exec_mul hm x y, rfl, val_mulPair x y⟩

/-- Settles O4: the steps of `mul64Pair` are R103's, and the code 011 decodes to `MUL64` of its three limbs. -/
theorem mul64DrivesTheThreeStepProduct : Obligations.Mul64DrivesTheThreeStepProduct := by
  refine ⟨fun x v s hm => ?_, fun s hop hm => step_operation (decode_mul64 hop hm)⟩
  rw [exec_mul64 hm, mul64Pair]
  rfl

/-- Settles O5: the steps of `mulPair` are R105's over those of `mul64Pair`, and the code 100 decodes to `MUL` of its four limbs. -/
theorem mulDrivesTheTwoPartialProducts : Obligations.MulDrivesTheTwoPartialProducts := by
  refine ⟨fun x y s hm => ?_, fun s hop hm => step_operation (decode_mul hop hm)⟩
  rw [exec_mul hm, mulPair]
  rfl

/-- Settles O19: the words are the quotient and the remainder of the product by 2^64, which make it up again. -/
theorem wideningMultiplyIsExact : Obligations.WideningMultiplyIsExact := by
  refine fun x y => ⟨mulw_highWord_toNat_exact x y, mulw_lowWord_toNat x y, ?_⟩
  rw [mulw_highWord_toNat_exact, mulw_lowWord_toNat, Nat.div_add_mod']

/-- Settles O39: a block without `HAS_MUL` refuses both multiplies, whose codes stand above that of `CMP`. -/
theorem multipliesAreReservedWithoutTheExtension : Obligations.MultipliesAreReservedWithoutTheExtension := by
  refine ⟨fun s hm => ⟨exec_mul64_absent hm, exec_mul_absent hm, fun hop => ?_⟩, rfl, rfl⟩
  have habove : opCmp < s.inputs.op := by obtain h | h := hop <;> rw [h] <;> decide
  exact step_reserved (decode_of_not_definedOp (definedOp_of_opCmp_lt hm habove))

end Sys2Proof
end

section
/-!
SUPPORT. The proofs of the family 60_exceptions: no cause exists, and every defined request completes (R120).
-/

namespace Sys2Proof

open Machine

variable {cfg : Config} {r : Request}

/-! ### The decoder on the defined codes -/

theorem definedOp_iff {op : OpCode} : DefinedOp cfg op = true ↔
    op = opAdd ∨ op = opNeg ∨ op = opCmp ∨ cfg.hasMul = true ∧ (op = opMul64 ∨ op = opMul) := by
  simp only [DefinedOp, Bool.or_eq_true, Bool.and_eq_true, beq_iff_eq, or_assoc]

/-- Each defined code selects an operation, whatever the operands; `decode_of_not_definedOp` is the other half. -/
theorem decode_of_definedOp (h : DefinedOp cfg r.op = true) : ∃ i, decode cfg r = .operation i := by
  obtain hadd | hneg | hcmp | ⟨hm, hmul64 | hmul⟩ := definedOp_iff.mp h
  · exact ⟨_, decode_add hadd⟩
  · exact ⟨_, decode_neg hneg⟩
  · exact ⟨_, decode_cmp hcmp⟩
  · exact ⟨_, decode_mul64 hmul64 hm⟩
  · exact ⟨_, decode_mul hmul hm⟩

end Sys2Proof

namespace Sys2Proof

open Machine

/-- Settles O40: `Fault` has no constructor, so no step ends in one; a defined code decodes to an operation, and a decoded operation
is answered. -/
theorem noCauseExistsAndDefinedRequestsComplete : Obligations.NoCauseExistsAndDefinedRequestsComplete := by
  refine ⟨nofun, nofun, fun s hop => ?_⟩
  obtain ⟨i, hdecode⟩ := decode_of_definedOp hop
  exact ⟨_, step_eq_contract hdecode⟩

end Sys2Proof
end

section
/-!
SUPPORT. The proof of the family 70_reset_and_hazards: the first request after power-on is served (R142).
-/

namespace Sys2Proof

open Machine

/-- Settles O47: a block answers a request with its `eval` from every state (`evaluate_answer`), so from the power-on state of either
configuration; no value that `State.reset` chooses is used (R142: nothing has to be initialised). -/
theorem firstRequestAfterPowerOnIsServed : Obligations.FirstRequestAfterPowerOnIsServed := by
  intro cfg r response u heval
  calc (evaluate r u { State.reset with config := cfg }).1
      = evalContract cfg r := evaluate_answer r u _
    _ = some response := heval

end Sys2Proof
end

section
/-!
SUPPORT. The proofs about the packed words and the two directions of the encoder (30_encoding R51 to R57).

Packing is read as a number, field by field; that packing and unpacking undo each other then is arithmetic of the bit positions,
and the packed form adds nothing to the decoder's own round trip.
-/

namespace Sys2Proof

open Machine

/-! ### Joined and cut words as numbers -/

theorem toNat_append_eq_add {m n : Nat} (x : BitVec m) (y : BitVec n) :
    (x ++ y).toNat = x.toNat * 2 ^ n + y.toNat := by
  rw [BitVec.toNat_append, ← Nat.shiftLeft_add_eq_or_of_lt y.isLt, Nat.shiftLeft_eq]

theorem toNat_extractLsb'_eq_mod {w : Nat} (x : BitVec w) (start len : Nat) :
    (x.extractLsb' start len).toNat = x.toNat / 2 ^ start % 2 ^ len := by
  rw [BitVec.extractLsb'_toNat, Nat.shiftRight_eq_div_pow]

/-! ### The packed request -/

theorem packRequest_toNat (r : Request) : (packRequest r).toNat =
    r.op.toNat * 2 ^ 256 + r.bHi.toNat * 2 ^ 192 + r.bLo.toNat * 2 ^ 128 + r.aHi.toNat * 2 ^ 64 + r.aLo.toNat := by
  simp only [packRequest, toNat_append_eq_add]
  ring

@[simp] theorem unpackRequest_packRequest (r : Request) : unpackRequest (packRequest r) = r := by
  obtain ⟨op, aLo, aHi, bLo, bHi⟩ := r
  simp only [unpackRequest, Request.mk.injEq]
  refine ⟨?_, ?_, ?_, ?_, ?_⟩ <;>
    (apply BitVec.eq_of_toNat_eq; rw [toNat_extractLsb'_eq_mod, packRequest_toNat]; dsimp only; omega)

/-- No bit of the word lies outside its fields. -/
theorem packRequest_unpackRequest (w : RequestWord) : packRequest (unpackRequest w) = w := by
  apply BitVec.eq_of_toNat_eq
  rw [packRequest_toNat]
  simp only [unpackRequest, toNat_extractLsb'_eq_mod]
  omega

/-! ### The packed response -/

theorem packResponse_toNat (r : Response) :
    (packResponse r).toNat = r.rLt.toNat * 2 ^ 128 + r.rHi.toNat * 2 ^ 64 + r.rLo.toNat := by
  simp only [packResponse, toNat_append_eq_add]
  ring

theorem unpackResponse_packResponse (r : Response) : unpackResponse (packResponse r) = r := by
  obtain ⟨rLo, rHi, rLt⟩ := r
  simp only [unpackResponse, Response.mk.injEq]
  refine ⟨?_, ?_, ?_⟩ <;>
    (apply BitVec.eq_of_toNat_eq; rw [toNat_extractLsb'_eq_mod, packResponse_toNat]; dsimp only; omega)

theorem packResponse_unpackResponse (w : ResponseWord) : packResponse (unpackResponse w) = w := by
  apply BitVec.eq_of_toNat_eq
  rw [packResponse_toNat]
  simp only [unpackResponse, toNat_extractLsb'_eq_mod]
  omega

/-! ### The encoder and the decoder -/

/-- An instruction's request decodes to it on the blocks that have it. -/
theorem decode_encode {cfg : Config} {i : Instr} (h : WellFormed cfg i = true) :
    decode cfg (encode i) = .operation i := by
  have hfamily : Laws.Encoding.Statement i := by
    cases i with
    | add x y => exact Laws.Encoding.add x y
    | neg x => exact Laws.Encoding.neg x
    | cmp x y => exact Laws.Encoding.cmp x y
    | mul64 x v => exact Laws.Encoding.mul64 x v
    | mul x y => exact Laws.Encoding.mul x y
  rw [hfamily cfg, if_pos h]

theorem decodeWord_encodeWord {cfg : Config} {i : Instr} (h : WellFormed cfg i = true) :
    decodeWord cfg (encodeWord i) = .operation i := by
  rw [decodeWord, encodeWord, unpackRequest_packRequest, decode_encode h]

theorem decodeWord_of_eq_encodeWord {cfg : Config} {i : Instr} {w : RequestWord} (hw : w = encodeWord i)
    (h : WellFormed cfg i = true) : decodeWord cfg w = .operation i := by
  rw [hw, decodeWord_encodeWord h]

/-- The encoder writes the ports that the decoder read, and zero on those it ignored (R53, R55). -/
theorem encode_of_decode {cfg : Config} {r : Request} {i : Instr} (h : decode cfg r = .operation i) :
    encode i = { r with
      bLo := if r.op = opNeg then 0#64 else r.bLo
      bHi := if r.op = opNeg ∨ r.op = opMul64 then 0#64 else r.bHi } := by
  obtain ⟨op, aLo, aHi, bLo, bHi⟩ := r
  obtain ⟨hop, e⟩ | ⟨hop, e⟩ | ⟨hop, e⟩ | ⟨hop, -, e⟩ | ⟨hop, -, e⟩ | ⟨e, -⟩ := decode_cases cfg _ <;>
    rw [e] at h <;> cases h
  all_goals cases hop; rfl

end Sys2Proof

namespace Sys2Proof

open Machine

/-- Settles O30: unpacking undoes packing, and an instruction's request decodes to it. -/
theorem decodingUndoesEncoding : Obligations.DecodingUndoesEncoding :=
  fun _ _ => decodeWord_encodeWord

/-- Settles O28: the packed request as a number, and both round trips from it. -/
theorem packedRequestHoldsExactlyItsFields : Obligations.PackedRequestHoldsExactlyItsFields :=
  ⟨packRequest_toNat, unpackRequest_packRequest, packRequest_unpackRequest⟩

/-- Settles O29: the packed response as a number, and both round trips from it. -/
theorem packedResponseHoldsExactlyItsFields : Obligations.PackedResponseHoldsExactlyItsFields :=
  ⟨packResponse_toNat, unpackResponse_packResponse, packResponse_unpackResponse⟩

/-- Settles O31: the decoder reads only operations of the block, and the encoder writes back the ports it read. -/
theorem encodingUndoesDecodingOnThePortsRead : Obligations.EncodingUndoesDecodingOnThePortsRead :=
  fun _ _ _ h => ⟨decode_wellFormed h, encode_of_decode h⟩

/-- Settles O32: each written-out word is its instruction's packed request, so it decodes by the round trip of O30. -/
theorem writtenOutRequestsDecode : Obligations.WrittenOutRequestsDecode := by
  refine ⟨?_, ?_, ?_, ?_, ?_⟩ <;>
    (apply decodeWord_of_eq_encodeWord
     case hw => simp [encodeWord, packRequest, encode, opCodeOf, opAdd, opNeg, opCmp, opMul64, opMul]
     case h => rfl)

end Sys2Proof
end

section
/-!
SUPPORT. The proofs about one step as a whole: it is the value-level `eval` of the request (R10, R44), and what follows from that for
settled states (R141, R143), reserved requests (R58) and the blocks of a bank (R129).
-/

namespace Sys2Proof.Machine

/-! ### One step is `eval` -/

/-- The limb-level machine against the value-level rules: both decode the request, and each instruction drives its contract. -/
theorem step_eq_evalContract (s : State) : step s =
    match evalContract s.config s.inputs with
    | some r => .next { s with outputs := r }
    | none   => .refused (.reservedOp s.inputs.op) := by
  cases h : decode s.config s.inputs with
  | operation i => rw [step_eq_contract h, evalContract_operation h]
  | reserved code => rw [step_reserved h, evalContract_reserved h, decode_reserved h]

/-- Everything a step that answers can have done: drive the `eval` of the inputs. -/
theorem step_eq_next_iff {s t : State} :
    step s = .next t ↔ ∃ r, evalContract s.config s.inputs = some r ∧ t = { s with outputs := r } := by
  rw [step_eq_evalContract]
  cases evalContract s.config s.inputs <;> simp [eq_comm]

/-! ### Settled states -/

theorem settled_of_step {s t : State} (h : step s = .next t) : Settled t := by
  obtain ⟨r, heval, rfl⟩ := step_eq_next_iff.mp h
  exact heval

theorem step_eq_self_of_settled {s : State} (h : Settled s) : step s = .next s :=
  step_eq_next_iff.mpr ⟨s.outputs, h, rfl⟩

/-! ### Several blocks -/

/-- A request to a block that the bank does not have does nothing. -/
theorem evaluateAt_of_none {n : Nat} {bank : Bank} (h : bank[n]? = none) (r : Request) (u : Response) :
    evaluateAt n r u bank = (none, bank) := by
  induction bank generalizing n with
  | nil => cases n <;> rfl
  | cons b bank ih =>
    cases n with
    | zero => cases h
    | succ n => simp only [evaluateAt, ih (n := n) h]

end Sys2Proof.Machine

namespace Sys2Proof

open Machine

/-- Settles O43: a decoded request drives its instruction's contract, and a reserved one is refused under its code. -/
theorem stepIsTheValueLevelFunction : Obligations.StepIsTheValueLevelFunction :=
  step_eq_evalContract

/-- Settles O44: what a step drives is `eval` of the inputs, which it keeps; the outputs before it do not matter. -/
theorem everyStepSettlesTheOutputs : Obligations.EveryStepSettlesTheOutputs :=
  ⟨fun _ _ _ => settled_of_step, fun _ _ => settled_of_step⟩

/-- Settles O45: to drive `eval` of the inputs changes nothing exactly where it is driven already. -/
theorem settledStatesAreExactlyTheFixedPoints : Obligations.SettledStatesAreExactlyTheFixedPoints :=
  ⟨fun _ => ⟨step_eq_self_of_settled, settled_of_step⟩, fun _ _ h => step_eq_self_of_settled (settled_of_step h)⟩

/-- Settles O46: the zeros on the inputs decode to `ADD` of zero and zero, whose response stands on the outputs. -/
theorem powerOnStateIsSettled : Obligations.PowerOnStateIsSettled :=
  evalContract_operation (i := .add ⟨0#64, 0#64⟩ ⟨0#64, 0#64⟩) (decode_add rfl)

/-- Settles O37: `step` is `exec` of what the decoder reads. -/
theorem stepRunsTheDecodedInstruction : Obligations.StepRunsTheDecodedInstruction :=
  fun _ _ => step_operation

/-- Settles O42: the parameter and the snapshot fix the step. -/
theorem stepDependsOnTheRequestAlone : Obligations.StepDependsOnTheRequestAlone :=
  fun _ _ => step_eq_of_ports

/-- Settles O34: an instruction that answers drives a `boolResponse` if it is `CMP`, and else a `pairResponse`. -/
theorem outputsOutsideTheResultViewAreZero : Obligations.OutputsOutsideTheResultViewAreZero := by
  intro i s t h
  obtain ⟨-, rfl⟩ := exec_next h
  cases i with
  | cmp x y => exact ⟨rfl, rfl⟩
  | add x y | neg x | mul64 x v | mul x y => rfl

/-- Settles O38: the codes above that of `MUL`, and without `HAS_MUL` those above that of `CMP`, select no operation. -/
theorem reservedRequestIsRefusedByName : Obligations.ReservedRequestIsRefusedByName := by
  intro s hop
  have hundefined : DefinedOp s.config s.inputs.op = false := by
    obtain h | h | h | ⟨hm, h | h⟩ := hop
    case inr.inr.inr.inl | inr.inr.inr.inr => exact definedOp_of_opCmp_lt hm (by rw [h]; decide)
    all_goals exact definedOp_of_opMul_lt s.config (by rw [h]; decide)
  exact step_reserved (decode_of_not_definedOp hundefined)

/-- Settles O48: a served request is answered with its `eval` whatever came before, and a reserved one has none. -/
theorem reservedRequestDoesNoLastingHarm : Obligations.ReservedRequestDoesNoLastingHarm := by
  intro bad good u u' s hbad hgood
  obtain ⟨i, hdecode⟩ := decode_of_definedOp hgood
  refine ⟨?_, contract i, evalContract_operation hdecode, ?_⟩
  · rw [evaluate_answer, evalContract_reserved (decode_of_not_definedOp hbad)]
  · rw [evaluate_answer, evaluate_config, evalContract_operation hdecode]

/-- Settles O50: a bank does nothing but put the served block's new state in its place. -/
theorem blocksShareNothing : Obligations.BlocksShareNothing := by
  intro n r u bank
  cases hn : bank[n]? with
  | none =>
    rw [evaluateAt_of_none hn]
    exact ⟨rfl, fun _ _ => rfl, nofun⟩
  | some s =>
    rw [evaluateAt_eq_set hn]
    refine ⟨List.length_set, fun m hm => List.getElem?_set_ne hm.symm, ?_⟩
    rintro _ ⟨⟩
    exact ⟨rfl, List.getElem?_set_self (List.getElem?_eq_some_iff.mp hn).1⟩

end Sys2Proof
end

section
/-!
SUPPORT. The proofs of the laws of `ADD`, `NEG` and `MUL` (41_add R75, 42_negate R82 to R84, 44_multiply_optional R107, R109).

The joined word `{hi, lo}` of R41 carries the shared operations to the arithmetic of 128-bit words, which is a commutative ring:
every law of the ring is a law of the pairs.
-/

namespace Sys2Proof.Machine

/-! ### Pairs as 128-bit words -/

theorem joined_injective : Function.Injective joined := by
  intro p q h
  apply val_injective
  rw [← joined_toNat, h, joined_toNat]

theorem joined_addPair (x y : Pair) : joined (addPair x y) = joined x + joined y := by
  apply BitVec.eq_of_toNat_eq
  rw [BitVec.toNat_add, joined_toNat, joined_toNat, joined_toNat, val_addPair]

theorem joined_negPair (x : Pair) : joined (negPair x) = -joined x := by
  apply BitVec.eq_of_toNat_eq
  rw [BitVec.toNat_neg, joined_toNat, joined_toNat, val_negPair]

theorem joined_mulPair (x y : Pair) : joined (mulPair x y) = joined x * joined y := by
  apply BitVec.eq_of_toNat_eq
  rw [BitVec.toNat_mul, joined_toNat, joined_toNat, joined_toNat, val_mulPair]

theorem joined_pairOf (n : Nat) : joined (pairOf n) = (n : BitVec 128) := by
  apply BitVec.eq_of_toNat_eq
  rw [joined_toNat, val_pairOf, BitVec.natCast_eq_ofNat, BitVec.toNat_ofNat]

theorem joined_zero : joined ⟨0#64, 0#64⟩ = 0 := rfl

theorem joined_one : joined ⟨1#64, 0#64⟩ = 1 := rfl

/-! ### The laws of the adder and the negator -/

theorem addPair_zero (x : Pair) : addPair x ⟨0#64, 0#64⟩ = x :=
  joined_injective (by rw [joined_addPair, joined_zero, add_zero])

theorem addPair_comm (x y : Pair) : addPair x y = addPair y x :=
  joined_injective (by rw [joined_addPair, joined_addPair, add_comm])

theorem addPair_assoc (x y z : Pair) : addPair (addPair x y) z = addPair x (addPair y z) :=
  joined_injective (by simp only [joined_addPair, add_assoc])

theorem addPair_negPair (x : Pair) : addPair x (negPair x) = ⟨0#64, 0#64⟩ :=
  joined_injective (by rw [joined_addPair, joined_negPair, joined_zero, add_neg_cancel])

theorem negPair_negPair (x : Pair) : negPair (negPair x) = x :=
  joined_injective (by rw [joined_negPair, joined_negPair, neg_neg])

theorem negPair_addPair (x y : Pair) : negPair (addPair x y) = addPair (negPair x) (negPair y) :=
  joined_injective (by simp only [joined_addPair, joined_negPair, neg_add])

/-! ### The laws of the multiplier -/

theorem mulPair_comm (x y : Pair) : mulPair x y = mulPair y x :=
  joined_injective (by rw [joined_mulPair, joined_mulPair, mul_comm])

theorem mulPair_assoc (x y z : Pair) : mulPair (mulPair x y) z = mulPair x (mulPair y z) :=
  joined_injective (by simp only [joined_mulPair, mul_assoc])

theorem mulPair_addPair (x y z : Pair) : mulPair x (addPair y z) = addPair (mulPair x y) (mulPair x z) :=
  joined_injective (by simp only [joined_mulPair, joined_addPair, mul_add])

theorem one_mulPair (x : Pair) : mulPair ⟨1#64, 0#64⟩ x = x :=
  joined_injective (by rw [joined_mulPair, joined_one, one_mul])

theorem zero_mulPair (x : Pair) : mulPair ⟨0#64, 0#64⟩ x = ⟨0#64, 0#64⟩ :=
  joined_injective (by rw [joined_mulPair, joined_zero, zero_mul])

/-- One more time `y` (the source's property S6). -/
theorem mulPair_pairOf_succ (n : Nat) (y : Pair) :
    mulPair (pairOf (n + 1)) y = addPair (mulPair (pairOf n) y) y :=
  joined_injective (by simp only [joined_mulPair, joined_addPair, joined_pairOf, Nat.cast_succ, add_one_mul])

/-- A second operand of one limb leaves of `MUL` the one `MUL64`. -/
theorem mulPair_limb (x : Pair) (v : Limb) : mulPair x ⟨v, 0#64⟩ = mul64Pair x v := by
  have hlimb : val ⟨v, 0#64⟩ = v.toNat := by simp [val]
  apply val_injective
  rw [val_mulPair, val_mul64Pair, hlimb]

/-! ### The negator, limb by limb -/

theorem exec_neg (x : Pair) (s : State) :
    exec (.neg x) s = .next { s with outputs := pairResponse (negPair x) } := rfl

/-- Half of 2^128 and 0 are their own complements to 2^128 (R82). -/
theorem negPair_eq_self_iff (x : Pair) :
    negPair x = x ↔ x = ⟨0#64, 0#64⟩ ∨ x = ⟨0#64, 0x8000000000000000#64⟩ := by
  have hzero : val ⟨0#64, 0#64⟩ = 0 := rfl
  have hhalf : val ⟨0#64, 0x8000000000000000#64⟩ = 2 ^ 127 := rfl
  have hx := val_lt x
  rw [← val_injective.eq_iff, ← val_injective.eq_iff, ← val_injective.eq_iff, val_negPair, hzero, hhalf]
  omega

/-- Adding one to the complement of a limb carries only from the complement of 0. -/
theorem carryLow_complement_add_one (w : Limb) :
    carryLow (add64 (~~~w) 1#64) (~~~w) = decide (w = 0#64) := by
  have hw := w.isLt
  rw [carryLow_add64_eq_decide, decide_eq_decide, BitVec.toNat_not, BitVec.toNat_eq]
  simp only [BitVec.toNat_ofNat]
  omega

theorem negPair_lo (x : Pair) : (negPair x).lo = BitVec.ofNat 64 ((2 ^ 64 - x.lo.toNat) % 2 ^ 64) := by
  apply BitVec.eq_of_toNat_eq
  rw [← val_mod, val_negPair, val, BitVec.toNat_ofNat]
  omega

theorem negPair_hi (x : Pair) : (negPair x).hi = ~~~x.hi + (if x.lo = 0#64 then 1#64 else 0#64) := by
  have hsteps : (negPair x).hi =
      addCarry (add64 (~~~x.hi) 0#64) (carryLow (add64 (~~~x.lo) 1#64) (~~~x.lo)) := rfl
  rw [hsteps, carryLow_complement_add_one]
  by_cases h : x.lo = 0#64 <;> simp [h, addCarry, add64]

end Sys2Proof.Machine

namespace Sys2Proof

open Machine

/-- Settles O12: the laws of `addPair`. -/
theorem addIsCommutativeAndAssociativeWithZero : Obligations.AddIsCommutativeAndAssociativeWithZero := by
  refine ⟨fun x s => ⟨?_, ?_⟩, fun x y s => ?_, fun x y z s t u ht hu => ?_⟩
  · rw [exec_add, addPair_zero]
    rfl
  · rw [exec_add, addPair_comm, addPair_zero]
    rfl
  · rw [exec_add, exec_add, addPair_comm]
  · obtain ⟨-, rfl⟩ := exec_next ht
    obtain ⟨-, rfl⟩ := exec_next hu
    simp only [exec_add, drivenBy, resultPair_pairResponse, addPair_assoc]

/-- Settles O13: the laws of `negPair`. -/
theorem negIsAnAdditiveInverseAndAnInvolution : Obligations.NegIsAnAdditiveInverseAndAnInvolution := by
  refine ⟨fun x s t ht => ?_, fun x y s t u v ht hu hv => ?_⟩
  · obtain ⟨-, rfl⟩ := exec_next ht
    simp only [exec_add, exec_neg, drivenBy, resultPair_pairResponse, addPair_negPair, negPair_negPair]
    exact ⟨rfl, rfl⟩
  · obtain ⟨-, rfl⟩ := exec_next ht
    obtain ⟨-, rfl⟩ := exec_next hu
    obtain ⟨-, rfl⟩ := exec_next hv
    simp only [exec_add, exec_neg, drivenBy, resultPair_pairResponse, negPair_addPair]

/-- Settles O14: the result pair of `NEG` is `negPair`, whose fixed points are the two patterns. -/
theorem negFixesExactlyZeroAndBit127 : Obligations.NegFixesExactlyZeroAndBit127 := by
  intro x s t ht
  obtain ⟨-, rfl⟩ := exec_next ht
  exact negPair_eq_self_iff x

/-- Settles O15: one closed form per limb of `negPair`. -/
theorem negHasTheClosedFormPerLimb : Obligations.NegHasTheClosedFormPerLimb := by
  intro x s
  rw [exec_neg, pairResponse, negPair_lo, negPair_hi]

/-- Settles O21: both orders drive `mulPair x y`. -/
theorem mulIsCommutative : Obligations.MulIsCommutative := by
  intro x y s hm
  refine ⟨_, exec_mul hm x y, ?_⟩
  rw [exec_mul hm, mulPair_comm]

/-- Settles O22: the sequence is what `MUL` drives for each number of times. -/
theorem mulAgreesWithRepeatedAdd : Obligations.MulAgreesWithRepeatedAdd := by
  intro n y s hm
  refine ⟨fun k => mulPair (pairOf k) y, zero_mulPair y, fun k => ?_, exec_mul hm _ _⟩
  simp only [exec_add, mulPair_pairOf_succ]

/-- Settles O23: `MUL` by a value of one limb is `MUL64`. -/
theorem mulByOneLimbIsMul64 : Obligations.MulByOneLimbIsMul64 := by
  intro x v s hm
  refine ⟨_, exec_mul hm x _, ?_⟩
  rw [exec_mul64 hm, mulPair_limb]

/-- Settles O24: the laws of `mulPair` with `addPair`; every evaluation completes on a block with `HAS_MUL`. -/
theorem mulObeysTheRingLaws : Obligations.MulObeysTheRingLaws := by
  intro x y z s hm
  refine ⟨⟨_, _, _, exec_mul hm x y, exec_mul hm y z, exec_mul hm _ z, ?_⟩,
    ⟨_, _, _, _, exec_add y z s, exec_mul hm x y, exec_mul hm x z, exec_mul hm x _, ?_⟩, ?_, ?_⟩
  · simp only [exec_mul hm, resultPair_pairResponse, mulPair_assoc]
  · simp only [exec_add, resultPair_pairResponse, mulPair_addPair]
  · rw [exec_mul hm, one_mulPair]
    rfl
  · rw [exec_mul hm, zero_mulPair]
    rfl

end Sys2Proof
end

section
/-!
SUPPORT. The proofs of the laws of `CMP` (43_compare R93, 41_add R73): they are those of the order of natural numbers, since `CMP`
decides that order on the values (R91).
-/

namespace Sys2Proof.Machine

/-- `CMP` of `x` and `y` drives the bit `b`, in every state. -/
def CmpGives (b : Bit) (x y : Pair) : Prop :=
  ∀ s : State, exec (.cmp x y) s = .next { s with outputs := { rLo := 0#64, rHi := 0#64, rLt := b } }

theorem cmpGives_iff {b : Bit} {x y : Pair} : CmpGives b x y ↔ BitVec.ofBool (decide (val x < val y)) = b := by
  simp only [CmpGives, exec_cmp, lessThan_eq_decide_val, Host.Outcome.next.injEq, State.mk.injEq, Response.mk.injEq,
    true_and]
  exact ⟨fun h => h State.reset, fun h _ => h⟩

theorem cmpGives_one_iff {x y : Pair} : CmpGives 1#1 x y ↔ val x < val y := by
  rw [cmpGives_iff, ofBool_eq_one_iff, decide_eq_true_iff]

theorem cmpGives_zero_iff {x y : Pair} : CmpGives 0#1 x y ↔ val y ≤ val x := by
  rw [cmpGives_iff, ofBool_eq_zero_iff, decide_eq_false_iff_not, Nat.not_lt]

/-- A sum has wrapped exactly when it is below its first addend. -/
theorem lessThan_addPair (x y : Pair) : lessThan (addPair x y) x = decide (2 ^ 128 ≤ val x + val y) := by
  have hx := val_lt x
  have hy := val_lt y
  rw [lessThan_eq_decide_val, val_addPair, decide_eq_decide]
  omega

end Sys2Proof.Machine

namespace Sys2Proof

open Machine

/-- Settles O17: each clause is the law of the natural order on the values, and distinct pairs have distinct values. -/
theorem cmpIsAStrictTotalOrder : Obligations.CmpIsAStrictTotalOrder := by
  refine ⟨fun x => ?_, fun x y hne => ?_, fun x y z hxy hyz => ?_, fun x => ?_, fun x => ?_⟩
  · exact cmpGives_zero_iff.mpr le_rfl
  · obtain h | h := Nat.lt_or_gt_of_ne (val_injective.ne hne)
    · exact .inl ⟨cmpGives_one_iff.mpr h, cmpGives_zero_iff.mpr h.le⟩
    · exact .inr ⟨cmpGives_zero_iff.mpr h.le, cmpGives_one_iff.mpr h⟩
  · exact cmpGives_one_iff.mpr ((cmpGives_one_iff.mp hxy).trans (cmpGives_one_iff.mp hyz))
  · exact cmpGives_zero_iff.mpr (Nat.zero_le _)
  · exact cmpGives_zero_iff.mpr (Nat.le_of_lt_succ (val_lt x))

/-- Settles O18: the comparator finds the sum below its addend exactly when the sum has wrapped. -/
theorem cmpOfTheSumRecoversTheDroppedCarry : Obligations.CmpOfTheSumRecoversTheDroppedCarry := by
  intro x y s t ht
  obtain ⟨-, rfl⟩ := exec_next ht
  rw [exec_cmp, drivenBy, resultPair_pairResponse, lessThan_addPair, ofBool_decide]

end Sys2Proof
end

section
/-!
SUPPORT. The proof of the schoolbook form of the widening multiply (44_multiply_optional R102): with the limbs cut into halves, no
64-bit step of it overflows, so its carries are those of the exact product.
-/

namespace Sys2Proof.Machine

theorem wideProduct_ext_toNat {p q : WideProduct} (hhigh : p.highWord.toNat = q.highWord.toNat)
    (hlow : p.lowWord.toNat = q.lowWord.toNat) : p = q := by
  cases p
  cases q
  simp only [WideProduct.mk.injEq]
  exact ⟨BitVec.eq_of_toNat_eq hhigh, BitVec.eq_of_toNat_eq hlow⟩

/-! ### The halves of a limb -/

def lowHalf (w : Limb) : Limb := w &&& 0xFFFFFFFF#64

def highHalf (w : Limb) : Limb := w >>> 32

theorem lowHalf_toNat (w : Limb) : (lowHalf w).toNat = w.toNat % 2 ^ 32 := by
  rw [lowHalf, BitVec.toNat_and]
  exact Nat.and_two_pow_sub_one_eq_mod w.toNat 32

theorem highHalf_toNat (w : Limb) : (highHalf w).toNat = w.toNat / 2 ^ 32 := by
  rw [highHalf, BitVec.toNat_ushiftRight, Nat.shiftRight_eq_div_pow]

theorem lowHalf_toNat_lt (w : Limb) : (lowHalf w).toNat < 2 ^ 32 := by
  rw [lowHalf_toNat]
  exact Nat.mod_lt _ (by decide)

theorem highHalf_toNat_lt (w : Limb) : (highHalf w).toNat < 2 ^ 32 := by
  have hw := w.isLt
  rw [highHalf_toNat]
  omega

theorem toNat_eq_halves (w : Limb) : w.toNat = (highHalf w).toNat * 2 ^ 32 + (lowHalf w).toNat := by
  rw [highHalf_toNat, lowHalf_toNat, Nat.div_add_mod']

/-! ### Partial products -/

theorem halves_mul_le {a b : Nat} (ha : a < 2 ^ 32) (hb : b < 2 ^ 32) : a * b ≤ (2 ^ 32 - 1) * (2 ^ 32 - 1) :=
  Nat.mul_le_mul (Nat.le_sub_one_of_lt ha) (Nat.le_sub_one_of_lt hb)

/-- A partial product of halves fits in a limb. -/
theorem halves_mul_toNat {a b : Limb} (ha : a.toNat < 2 ^ 32) (hb : b.toNat < 2 ^ 32) :
    (a * b).toNat = a.toNat * b.toNat := by
  have hle := halves_mul_le ha hb
  rw [BitVec.toNat_mul, Nat.mod_eq_of_lt (by omega)]

/-- The number that four partial products stand for. -/
def partialProductsSum (p00 p01 p10 p11 : Limb) : Nat :=
  p11.toNat * 2 ^ 64 + (p01.toNat + p10.toNat) * 2 ^ 32 + p00.toNat

/-- The exact product of two limbs is the sum of its four partial products. -/
theorem toNat_mul_eq_partialProductsSum (x y : Limb) : x.toNat * y.toNat =
    partialProductsSum (lowHalf x * lowHalf y) (lowHalf x * highHalf y) (highHalf x * lowHalf y)
      (highHalf x * highHalf y) := by
  rw [partialProductsSum, halves_mul_toNat (highHalf_toNat_lt x) (highHalf_toNat_lt y),
    halves_mul_toNat (lowHalf_toNat_lt x) (highHalf_toNat_lt y),
    halves_mul_toNat (highHalf_toNat_lt x) (lowHalf_toNat_lt y),
    halves_mul_toNat (lowHalf_toNat_lt x) (lowHalf_toNat_lt y), toNat_eq_halves x, toNat_eq_halves y]
  ring

/-! ### Carry propagation -/

/-- What the schoolbook form makes of its four partial products. -/
def combinePartialProducts (p00 p01 p10 p11 : Limb) : WideProduct :=
  let mid := highHalf p00 + lowHalf p01 + lowHalf p10
  { highWord := p11 + highHalf p01 + highHalf p10 + highHalf mid, lowWord := lowHalf p00 + (lowHalf mid <<< 32) }

theorem mulwSchoolbook_eq_combine (x y : Limb) : mulwSchoolbook x y =
    combinePartialProducts (lowHalf x * lowHalf y) (lowHalf x * highHalf y) (highHalf x * lowHalf y)
      (highHalf x * highHalf y) := rfl

variable (p00 p01 p10 p11 : Limb)

theorem combine_highWord_toNat : (combinePartialProducts p00 p01 p10 p11).highWord.toNat =
    partialProductsSum p00 p01 p10 p11 / 2 ^ 64 % 2 ^ 64 := by
  simp only [combinePartialProducts, partialProductsSum, BitVec.toNat_add, highHalf_toNat, lowHalf_toNat]
  omega

theorem combine_lowWord_toNat : (combinePartialProducts p00 p01 p10 p11).lowWord.toNat =
    partialProductsSum p00 p01 p10 p11 % 2 ^ 64 := by
  simp only [combinePartialProducts, partialProductsSum, BitVec.toNat_add, BitVec.toNat_shiftLeft,
    Nat.shiftLeft_eq, highHalf_toNat, lowHalf_toNat]
  omega

end Sys2Proof.Machine

namespace Sys2Proof

open Machine

/-- Settles O20: the words of both forms are the quotient and the remainder by 2^64 of the sum of the partial products, which is the
exact product. -/
theorem schoolbookMultiplyAgreesWithTheExactProduct : Obligations.SchoolbookMultiplyAgreesWithTheExactProduct := by
  intro x y
  rw [mulwSchoolbook_eq_combine]
  apply wideProduct_ext_toNat
  · rw [combine_highWord_toNat, mulw_highWord_toNat, toNat_mul_eq_partialProductsSum]
  · rw [combine_lowWord_toNat, mulw_lowWord_toNat, toNat_mul_eq_partialProductsSum]

end Sys2Proof
end

section
/-!
SUPPORT. The proofs that written texts read back: packed requests and responses (30_encoding R51, R57) and trace lines (R61, R62).

One lemma per reader, on the text that its writer gives followed by any rest; the readers of whole texts then run through these
lemmas from left to right. A literal ends where the digits end, so its lemma asks that the rest begins with no digit.
-/

namespace Sys2Proof.Machine

/-! ### Digits -/

theorem digitValue_digitChar {n : Nat} (h : n < 16) : digitValue (digitChar n) = some n := by
  have hdigit : ∀ d : Fin 16, digitValue (digitChar d) = some d.val := by decide
  exact hdigit ⟨n, h⟩

/-- The text of a number begins with a digit when it has any. -/
theorem hexText_succ_eq_cons (k n : Nat) : ∃ d < 16, ∃ cs, hexText (k + 1) n = digitChar d :: cs := by
  induction k generalizing n with
  | zero => exact ⟨n % 16, Nat.mod_lt _ (by decide), [], rfl⟩
  | succ k ih =>
    obtain ⟨d, hd, cs, hcs⟩ := ih (n / 16)
    exact ⟨d, hd, cs ++ [digitChar (n % 16)], by rw [hexText, hcs, List.cons_append]⟩

/-- Appending the digit `n % 16` to the digits of `n / 16` gives those of `n`. -/
theorem acc_mul_add_mod (acc n k : Nat) :
    (acc * 16 ^ k + n / 16 % 16 ^ k) * 16 + n % 16 = acc * 16 ^ (k + 1) + n % 16 ^ (k + 1) := by
  rw [Nat.pow_succ', Nat.mod_mul]
  ring

/-! ### Packed texts -/

theorem readHex_hexText (k m acc n : Nat) (rest : Text) :
    readHex (m + k) acc (hexText k n ++ rest) = readHex m (acc * 16 ^ k + n % 16 ^ k) rest := by
  induction k generalizing m n rest with
  | zero => simp [hexText, Nat.mod_one]
  | succ k ih =>
    have hdigit : digitValue (digitChar (n % 16)) = some (n % 16) := digitValue_digitChar (Nat.mod_lt _ (by decide))
    rw [hexText, List.append_assoc, ← Nat.add_assoc, Nat.add_right_comm, ih, List.singleton_append, readHex, hdigit]
    simp only [acc_mul_add_mod]

@[simp] theorem readLimb16_limbText (w : Limb) (rest : Text) : readLimb16 (limbText w ++ rest) = some (w, rest) := by
  have hread : readHex 16 0 (hexText 16 w.toNat ++ rest) = some (w.toNat, rest) := by
    have hw : w.toNat < 16 ^ 16 := w.isLt
    rw [readHex_hexText 16 0, Nat.zero_mul, Nat.zero_add, Nat.mod_eq_of_lt hw, readHex]
  rw [readLimb16, limbText, hread, Option.map_some, BitVec.ofNat_toNat, BitVec.setWidth_eq]

/-- A text that ends with a limb. -/
@[simp] theorem readLimb16_limbText_nil (w : Limb) : readLimb16 (limbText w) = some (w, []) := by
  simpa using readLimb16_limbText w []

@[simp] theorem readHex_digitChar {n : Nat} (h : n < 16) (rest : Text) :
    readHex 1 0 (digitChar n :: rest) = some (n, rest) := by
  simp only [readHex, digitValue_digitChar h, Nat.zero_mul, Nat.zero_add]

@[simp] theorem readChar_cons (c : Char) (rest : Text) : readChar c (c :: rest) = some rest :=
  if_pos rfl

theorem readRequestText_requestText (r : Request) : readRequestText (requestText r) = some r := by
  have hop : r.op.toNat < 8 := r.op.isLt
  have hdigit : r.op.toNat < 16 := by omega
  simp [readRequestText, requestText, hop, hdigit]

theorem readResponseText_responseText (r : Response) : readResponseText (responseText r) = some r := by
  have hlt : r.rLt.toNat ≤ 1 := Nat.le_of_lt_succ r.rLt.isLt
  have hdigit : r.rLt.toNat < 16 := by omega
  simp [readResponseText, responseText, hlt, hdigit]

/-! ### Literals -/

/-- The text begins with no hexadecimal digit, so a number written before it ends there. -/
def NoDigitFirst (cs : Text) : Prop := ∀ c ∈ cs.head?, digitValue c = none

theorem noDigitFirst_nil : NoDigitFirst [] := nofun

theorem noDigitFirst_comma (cs : Text) : NoDigitFirst (',' :: cs) := by
  rintro _ ⟨⟩
  decide

theorem noDigitFirst_space (cs : Text) : NoDigitFirst (' ' :: cs) := by
  rintro _ ⟨⟩
  decide

theorem readDigits_of_noDigitFirst (base acc : Nat) {rest : Text} (h : NoDigitFirst rest) :
    readDigits base acc rest = (acc, rest) := by
  cases rest with
  | nil => rfl
  | cons c cs => rw [readDigits, h c rfl]

theorem readDigits_hexText (k acc n : Nat) (rest : Text) :
    readDigits 16 acc (hexText k n ++ rest) = readDigits 16 (acc * 16 ^ k + n % 16 ^ k) rest := by
  induction k generalizing n rest with
  | zero => simp [hexText, Nat.mod_one]
  | succ k ih =>
    have hlt : n % 16 < 16 := Nat.mod_lt _ (by decide)
    rw [hexText, List.append_assoc, ih, List.singleton_append, readDigits, digitValue_digitChar hlt]
    simp only [if_pos hlt, acc_mul_add_mod]

/-- Where a digit stands, a number is what the digits from there on read onto 0. -/
theorem readNumber_digitChar {d : Nat} (h : d < 16) (cs : Text) :
    readNumber 16 (digitChar d :: cs) = some (readDigits 16 0 (digitChar d :: cs)) := by
  simp only [readNumber, readDigits, digitValue_digitChar h, if_pos h, Nat.zero_mul, Nat.zero_add]

theorem readNumber_limbText (w : Limb) {rest : Text} (h : NoDigitFirst rest) :
    readNumber 16 (limbText w ++ rest) = some (w.toNat, rest) := by
  have hw : w.toNat < 16 ^ 16 := w.isLt
  have hdigits : readDigits 16 0 (limbText w ++ rest) = (w.toNat, rest) := by
    rw [limbText, readDigits_hexText, readDigits_of_noDigitFirst _ _ h, Nat.zero_mul, Nat.zero_add,
      Nat.mod_eq_of_lt hw]
  obtain ⟨d, hd, cs, hcs⟩ := hexText_succ_eq_cons 15 w.toNat
  rw [limbText, hcs, List.cons_append] at hdigits ⊢
  rw [readNumber_digitChar hd, hdigits]

theorem readLiteral_literalText (w : Limb) (rest : Text) :
    readLiteral (literalText w ++ rest) = readNumber 16 (limbText w ++ rest) := by
  simp [readLiteral, literalText, skipSpaces]

theorem readOperand_literalText (w : Limb) {rest : Text} (h : NoDigitFirst rest) :
    readOperand 64 (literalText w ++ rest) = some (w, rest) := by
  simp only [readOperand, readLiteral_literalText, readNumber_limbText w h, if_pos w.isLt, BitVec.ofNat_toNat, BitVec.setWidth_eq]

/-! ### Lists of literals -/

/-- A space before a list of operands is skipped. -/
theorem readLimbs_space (n : Nat) (cs : Text) : readLimbs n (' ' :: cs) = readLimbs n cs := rfl

/-- After a first operand and a comma stands a list of operands again. -/
theorem readLimbs_succ {n : Nat} {cs rest : Text} {w : Limb} (h : readOperand 64 cs = some (w, ',' :: rest)) :
    readLimbs (n + 1) cs = (readLimbs n rest).map fun p => (w :: p.1, p.2) := by
  have hcomma : skipSpaces (',' :: rest) = ',' :: rest := rfl
  simp [readLimbs, h, readMoreLimbs, hcomma, Option.bind_assoc]

theorem readLimbs_literalsText (w : Limb) (ws : List Limb) {rest : Text} (h : NoDigitFirst rest) :
    readLimbs ws.length (literalsText (w :: ws) ++ rest) = some (w :: ws, rest) := by
  induction ws generalizing w with
  | nil => simp [readLimbs, literalsText, readMoreLimbs, readOperand_literalText w h]
  | cons v ws ih =>
    have hfirst : readOperand 64 (literalsText (w :: v :: ws) ++ rest) =
        some (w, ',' :: ' ' :: (literalsText (v :: ws) ++ rest)) := by
      rw [literalsText, List.append_assoc]
      exact readOperand_literalText w (noDigitFirst_comma _)
    rw [List.length_cons, readLimbs_succ hfirst, readLimbs_space, ih]
    rfl

/-! ### Trace lines -/

/-- The mnemonic holds no space, so it is the first word of a line. -/
theorem readWord_mnemonicText (i : Instr) (rest : Text) :
    readWord (skipSpaces (mnemonicText i ++ ' ' :: rest)) = (mnemonicText i, ' ' :: rest) := by
  cases i <;> rfl

theorem operationOf_mnemonicText (i : Instr) : operationOf (mnemonicText i) (operandLimbs i) = some i := by
  cases i <;> rfl

/-- A mnemonic fixes how many operands its line has. -/
theorem readLimbs_operandLimbs (i : Instr) {rest : Text} (h : NoDigitFirst rest) :
    readLimbs (moreOperandsOf (mnemonicText i)) (literalsText (operandLimbs i) ++ rest) = some (operandLimbs i, rest) := by
  cases i with
  | add x y => exact readLimbs_literalsText x.lo [x.hi, y.lo, y.hi] h
  | neg x => exact readLimbs_literalsText x.lo [x.hi] h
  | cmp x y => exact readLimbs_literalsText x.lo [x.hi, y.lo, y.hi] h
  | mul64 x v => exact readLimbs_literalsText x.lo [x.hi, v] h
  | mul x y => exact readLimbs_literalsText x.lo [x.hi, y.lo, y.hi] h

theorem readTrace_requestLine (i : Instr) : readTrace (requestLine i) = some { instr := i, result := none } := by
  have hlimbs := readLimbs_operandLimbs i noDigitFirst_nil
  rw [List.append_nil] at hlimbs
  simp [readTrace, requestLine, readWord_mnemonicText, readLimbs_space, hlimbs, operationOf_mnemonicText, skipSpaces]

/-- A line with an arrow reads back when the view after the arrow does. -/
theorem readTrace_arrow {i : Instr} {v : ResultView} (h : readView i (' ' :: viewText v) = some (v, [])) :
    readTrace (traceText { instr := i, result := some v }) = some { instr := i, result := some v } := by
  have hlimbs := readLimbs_operandLimbs i (noDigitFirst_space ('-' :: '>' :: ' ' :: viewText v))
  simp [readTrace, traceText, requestLine, readWord_mnemonicText, readLimbs_space, hlimbs, operationOf_mnemonicText,
    skipSpaces, h]

theorem readLimbs_pair (p : Pair) : readLimbs 1 (' ' :: viewText (.value p)) = some ([p.lo, p.hi], []) := by
  simpa [readLimbs_space, viewText] using readLimbs_literalsText p.lo [p.hi] noDigitFirst_nil

theorem readOperand_bit (b : Bit) : readOperand 1 (' ' :: viewText (.less b)) = some (b, []) := by
  revert b
  decide

/-- The view that an instruction takes of a response is of the kind that a line of it is read with. -/
theorem readView_resultView (i : Instr) (r : Response) :
    readView i (' ' :: viewText (resultView i r)) = some (resultView i r, []) := by
  cases i with
  | cmp x y => simp only [readView, resultView, readOperand_bit, Option.map_some]
  | add x y | neg x | mul64 x v | mul x y => simp only [readView, resultView, readLimbs_pair]

end Sys2Proof.Machine

namespace Sys2Proof

open Machine

/-- Settles O35: each field is read back where it was written. -/
theorem packedTextsReadBack : Obligations.PackedTextsReadBack :=
  ⟨readRequestText_requestText, readResponseText_responseText⟩

/-- Settles O36: the line of the request alone, and the line with the view after the arrow. -/
theorem traceLinesReadBack : Obligations.TraceLinesReadBack :=
  fun i => ⟨readTrace_requestLine i, fun r => readTrace_arrow (readView_resultView i r)⟩

end Sys2Proof
end
